-- ==== Sys2Proof/Word.lean ====
section
/-! DEFINITION. The two widths of the machine (spec/00_scope.md section 6: "A *byte* is 8 bits", "A *word*
here means the 16-bit program counter or a 16-bit address"; "There is no other width"). -/

namespace Sys2Proof

/-- An 8-bit quantity: a register A, X, Y or SP, a memory cell, an instruction byte. -/
abbrev Byte := BitVec 8

/-- A 16-bit quantity: the program counter, or the absolute operand of a store or a jump. -/
abbrev Word := BitVec 16

end Sys2Proof
end

