-- ==== Sys2Proof/Config.lean ====
section
/-! DEFINITION. The three parameters the spec leaves open (spec/00_scope.md R9, R10; R11: nothing else is one),
at the values `State.reset` takes. The machine itself never reads this file: the memory length travels with the
memory (`Memory.size`), the flags are state, and every statement about reset is made of `State.resetWith`, for every
value of the three. -/

namespace Sys2Proof.Config

/-- `MEMSIZE`, R9: "length chosen at construction (default 65536, i.e. a full 16-bit address space)".
DESIGN CHOICE, unsafe, log entry 1: `State.reset` takes the default. -/
def memSize : Nat := 65536

/-- `Z_RESET`, R10: open, "recommended default `false`".  DESIGN CHOICE, unsafe, log entry 2. -/
def zReset : Bool := false

/-- `C_RESET`, R10: open, "recommended default `false`".  DESIGN CHOICE, unsafe, log entry 2. -/
def cReset : Bool := false

end Sys2Proof.Config
end

