-- ==== Sys2Proof/Machine/State.lean ====
section
/-! DEFINITION. The architectural state (spec/10_state.md R20: "exactly this and nothing else: five registers, two
flags and one memory"), the two faults (spec/60_exceptions.md R170), and the state after reset (R40, R41, R190). -/

namespace Sys2Proof.Machine

/-- The memory `M` (R36, R50): `size` byte cells `M[0]` to `M[size - 1]`. `cells` lists, by rising address, the
cells that do not hold `Memory.unlisted`. `size` is the parameter `MEMSIZE` of R9: a fixed-length sequence has a
length, and carrying it here keeps the model open over every `MEMSIZE`; nothing changes it after construction
(R53; log entry 1). -/
structure Memory where
  size : Nat
  cells : List Host.Cell
deriving DecidableEq, Repr

/-- What a cell that is not listed holds: R40, memory is "allocated zero-filled at construction" (U8: "defined: 0x00"). -/
def Memory.unlisted : Byte := 0x00

/-- The names of the 8-bit registers (R20). -/
inductive Reg8 where
  | a
  | x
  | y
  | sp
deriving DecidableEq, Repr

/-- The names of the five registers, as the host's ports name them (R7, R8). -/
inductive RegName where
  | r8 (r : Reg8)
  | pc
deriving DecidableEq, Repr

/-- The names of the two flags (R20, R31). -/
inductive FlagName where
  | z
  | c
deriving DecidableEq, Repr

/-- The whole state, R20: "five registers, two flags and one memory". There is no status byte (R31), no control
register (R34), no other register file (R35), no hidden state (R37), and the program is not state (R39). -/
structure State where
  /-- the accumulator, R22 -/
  a : Byte
  /-- index register X, R23 -/
  x : Byte
  /-- index register Y, R24 -/
  y : Byte
  /-- the stack pointer, R25: no instruction reads or writes it -/
  sp : Byte
  /-- the program counter, R26: the address of the next opcode byte -/
  pc : Word
  /-- the zero flag, R29 -/
  z : Bool
  /-- the carry flag, R30 -/
  c : Bool
  /-- the memory, R36 -/
  mem : Memory
deriving DecidableEq, Repr

/-- The faults, R170: "exactly two kinds of fault", R173: a sum type with two constructors. A fault is the outcome of
the step; the state is left as it was (R174), and there is no trap entry. -/
inductive Fault where
  /-- `OutOfRange(address)`, R171. Raised by `memRead` and `memWrite` alone: an opcode fetch, an operand fetch or a
  store whose address is outside `[0, MEMSIZE)`, and the host's own accesses, where the address may be negative.
  Safe: the spec names this fault, and the machine stops where the spec stops it. The address carried is the access's
  own integer, unwrapped (log entry 3). -/
  | outOfRange (address : Int)
  /-- `UnimplementedOpcode(byte)`, R172. Raised by `fetch` when the opcode byte is none of the 15.
  Safe: the spec names this fault and its payload. -/
  | unimplementedOpcode (byte : Byte)
deriving DecidableEq, Repr

/-- Reasons for giving an instruction no meaning. No arm of `exec` uses one: all 15 instructions are modelled. -/
inductive Refusal where
  /-- An instruction whose meaning is not written yet, raised by `exec` alone. Safe: nothing can be proved of its effect. -/
  | notModelled (mnemonic : String)
deriving DecidableEq, Repr

/-- What a step or a meaning answers (R5: `ok` or `fault(kind, info)`). -/
abbrev Result := Host.Outcome State Fault Refusal

/-- The state after reset of a machine with the parameters of R9 and R10 (R40, R41, R190). -/
def State.resetWith (memSize : Nat) (zReset cReset : Bool) : State where
  a := 0x00
  x := 0x00
  y := 0x00
  sp := 0xFF
  pc := 0x0000
  z := zReset
  c := cReset
  mem := { size := memSize, cells := [] }

/-- The machine right after reset: R190, at the parameters of `Config` (log entries 1 and 2). -/
def State.reset : State := State.resetWith Config.memSize Config.zReset Config.cReset

end Sys2Proof.Machine
end

