-- ==== Sys2Proof/Machine/Ops.lean ====
section
/-! DEFINITION. The named operations over memory and registers: the register cell (spec/10_state.md R21), the two
access primitives of the memory (spec/20_memory.md R51, R52), the one fault operation (spec/60_exceptions.md R174). -/

namespace Sys2Proof.Machine

/-! ### The register cell -/

/-- R21: an 8-bit cell's `set(raw)` stores `raw mod 2^8`, for any integer. -/
def toReg8 (raw : Int) : Byte := BitVec.ofInt 8 raw

/-- R21: the 16-bit cell's `set(raw)` stores `raw mod 2^16`, for any integer. -/
def toReg16 (raw : Int) : Word := BitVec.ofInt 16 raw

/-- The value of an 8-bit register. R33: "all independent, no aliasing". -/
def State.reg (s : State) : Reg8 → Byte
  | .a => s.a
  | .x => s.x
  | .y => s.y
  | .sp => s.sp

/-- `r <- v` for an 8-bit register: that register alone changes (R33). -/
def State.setReg (s : State) (r : Reg8) (v : Byte) : State :=
  match r with
  | .a => { s with a := v }
  | .x => { s with x := v }
  | .y => { s with y := v }
  | .sp => { s with sp := v }

/-- `PC <- v`. R27: "Every write of PC goes through the 16-bit register cell"; R28: it "performs no bounds check". -/
def State.setPc (s : State) (v : Int) : State := { s with pc := toReg16 v }

/-- `PC <- (pc + n) mod 65536`, the sequential advance of R27. -/
def State.advance (s : State) (n : Nat) : State := s.setPc ((s.pc.toNat : Int) + n)

/-! ### The memory -/

/-- `M[a]`: what cell `a` holds (R50). -/
def Memory.cell (m : Memory) (a : Nat) : Byte := (m.cells.lookup a).getD Memory.unlisted

/-- The canonical form: addresses strictly rise, no listed cell holds what an unlisted one does, and every listed cell
exists. Equal memories are then equal data. -/
abbrev Memory.wf (m : Memory) : Prop :=
  m.cells.Pairwise (fun c d => c.1 < d.1) ∧ ∀ c ∈ m.cells, c.2 ≠ Memory.unlisted ∧ c.1 < m.size

/-- The cells without the one at `a`. -/
def eraseCell (a : Nat) (cells : List Host.Cell) : List Host.Cell := cells.filter fun c => c.1 != a

/-- The cells with `(a, v)` put in its place by address. -/
def insertCell (a : Nat) (v : Byte) : List Host.Cell → List Host.Cell
  | [] => [(a, v)]
  | c :: cs => if a < c.1 then (a, v) :: c :: cs else c :: insertCell a v cs

/-- `M[a] <- v`, keeping the canonical form: writing `Memory.unlisted` removes the entry. -/
def Memory.setCell (m : Memory) (a : Nat) (v : Byte) : Memory :=
  { m with
    cells := if v = Memory.unlisted then eraseCell a m.cells else insertCell a v (eraseCell a m.cells) }

/-- R51, R52: "Every read/write address must satisfy 0 <= address < length". R54: bounds are checked here and
nowhere else. -/
def Memory.inRange (m : Memory) (addr : Int) : Bool := decide (0 ≤ addr ∧ addr < (m.size : Int))

/-- `MemRead(addr, 1)`, R51. -/
def memRead (m : Memory) (addr : Int) : Except Fault Byte :=
  if m.inRange addr then .ok (m.cell addr.toNat) else .error (.outOfRange addr)

/-- `MemWrite(addr, 1, v)`, R52, for a `v` already reduced to 8 bits. -/
def memWrite (m : Memory) (addr : Int) (v : Byte) : Except Fault Memory :=
  if m.inRange addr then .ok (m.setCell addr.toNat v) else .error (.outOfRange addr)

/-! ### Faults -/

/-- Taking a fault, R174: "There is no trap entry. A fault ends the `step` transaction at once and is handed to the
host as the transaction's outcome"; nothing is saved because nothing is changed. There is no return from a trap (R176). -/
def raise (f : Fault) : Result := .fault f

end Sys2Proof.Machine
end

