-- ==== Sys2Proof/Machine/Flags.lean ====
section
/-! DEFINITION. The one flag computation of the machine: the ALU's add (spec/44_arithmetic.md R150, R151). -/

namespace Sys2Proof.Machine

/-- What the ALU answers: the 8-bit sum and the two flags it writes (R150). -/
structure AluResult where
  result : Byte
  zero : Bool
  carry : Bool
deriving DecidableEq, Repr

/-- `ALU_add(a, b)`, R150; R151: it has no carry input; R156: byte to byte. -/
def aluAdd (a b : Byte) : AluResult :=
  let raw := a.toNat + b.toNat
  let result : Byte := BitVec.ofNat 8 raw
  { result := result, zero := decide (result = 0), carry := decide (raw > 255) }

/-- Both flags written, "on every call, to true or to false" (R150). -/
def State.setFlags (s : State) (z c : Bool) : State := { s with z := z, c := c }

end Sys2Proof.Machine
end

