-- ==== Sys2Proof/Syntax.lean ====
section
/-! DEFINITION. The instruction set as syntax: one constructor per row of spec/opcode_table.json, in its order
(spec/30_encoding.md R89: "exactly 15 instructions"). Operands are what R86 to R88 assemble from the instruction
bytes: an immediate byte, a 16-bit absolute address, a raw branch offset byte (read as signed by `s8`). -/

namespace Sys2Proof

/-- The 15 instructions of R89. -/
inductive Instr where
  /-- `LDA #value`, 0xA9, R120 -/
  | lda (value : Byte)
  /-- `LDX #value`, 0xA2, R121 -/
  | ldx (value : Byte)
  /-- `LDY #value`, 0xA0, R122 -/
  | ldy (value : Byte)
  /-- `STA addr`, 0x8D, R130 -/
  | sta (addr : Word)
  /-- `STX addr`, 0x8E, R131 -/
  | stx (addr : Word)
  /-- `STY addr`, 0x8C, R132 -/
  | sty (addr : Word)
  /-- `TAX`, 0xAA, R140 -/
  | tax
  /-- `TAY`, 0xA8, R141 -/
  | tay
  /-- `TXA`, 0x8A, R142 -/
  | txa
  /-- `TYA`, 0x98, R143 -/
  | tya
  /-- `ADD #value`, 0x69, R152 -/
  | add (value : Byte)
  /-- `JMP addr`, 0x4C, R160 -/
  | jmp (addr : Word)
  /-- `NOP`, 0xEA, R161 -/
  | nop
  /-- `BNE target`, 0xD0, R162 -/
  | bne (offset : Byte)
  /-- `BEQ target`, 0xF0, R163 -/
  | beq (offset : Byte)
deriving DecidableEq, Repr

end Sys2Proof
end

