-- ==== Sys2Proof/Machine/Arithmetic.lean ====
section
/-! DEFINITION. The one arithmetic instruction (spec/44_arithmetic.md R152). -/

namespace Sys2Proof.Machine

/-- R152, `ADD imm`: `A <- ALU_add(A, value)`, Z and C both written, PC advance +2. -/
def execAdd (value : Byte) (s : State) : Result :=
  let sum := aluAdd s.a value
  .next (((s.setReg .a sum.result).setFlags sum.zero sum.carry).advance 2)

end Sys2Proof.Machine
end

