-- ==== Sys2Proof/WellFormed.lean ====
section
/-! DEFINITION. Which instructions are well formed. Every value an `Instr` can hold is legal (spec/30_encoding.md
R90: "all 256 values of `b1` and of `b2` are legal in every format that has them"), so the check on `Instr` accepts
them all; what can be ill formed is an operand WRITTEN in the assembler notation of R92, an integer, and the three
checks of R92 stand here with the operand they yield. -/

namespace Sys2Proof

/-- R90, U10: no operand value of any instruction is illegal. -/
def Instr.wf : Instr → Bool
  | .lda _ => true
  | .ldx _ => true
  | .ldy _ => true
  | .sta _ => true
  | .stx _ => true
  | .sty _ => true
  | .tax => true
  | .tay => true
  | .txa => true
  | .tya => true
  | .add _ => true
  | .jmp _ => true
  | .nop => true
  | .bne _ => true
  | .beq _ => true

/-- R92: "`MNEMONIC #value` for IMM, with `value` 0 to 255". -/
def asmImmediate (value : Int) : Option Byte :=
  if 0 ≤ value ∧ value ≤ 255 then some (BitVec.ofInt 8 value) else none

/-- R92: "`MNEMONIC addr` for ABS, with `addr` 0x0000 to 0xFFFF". -/
def asmAddress (addr : Int) : Option Word :=
  if 0 ≤ addr ∧ addr ≤ 0xFFFF then some (BitVec.ofInt 16 addr) else none

/-- R92: the offset byte of a branch at `here` to `target` is `(target - (here + 2)) mod 256`, "legal only if
`-128 <= target - (here + 2) <= 127`". -/
def asmOffset (here target : Int) : Option Byte :=
  if -128 ≤ target - (here + 2) ∧ target - (here + 2) ≤ 127 then
    some (BitVec.ofInt 8 (target - (here + 2)))
  else
    none

end Sys2Proof
end

