-- ==== Sys2Proof/Decode.lean ====
section
/-! DEFINITION. The decoder and the encoder, both from the opcode map of spec/30_encoding.md R89 and the four
formats of R81 to R84. The decoder is total on any bytes and rejects by name. -/

namespace Sys2Proof

/-- What a row of the opcode map says the opcode byte selects: the instruction itself (format IMP, R81), or an
instruction that still needs its operand (IMM, R82; ABS, R83; REL, R84). -/
inductive OpcodeEntry where
  | imp (i : Instr)
  | imm (mk : Byte → Instr)
  | abs (mk : Word → Instr)
  | rel (mk : Byte → Instr)

/-- The opcode map of R89, row for row in the source's order. -/
def opcodeTable : List (Byte × OpcodeEntry) :=
  [ (0xA9, .imm .lda),
    (0xA2, .imm .ldx),
    (0xA0, .imm .ldy),
    (0x8D, .abs .sta),
    (0x8E, .abs .stx),
    (0x8C, .abs .sty),
    (0xAA, .imp .tax),
    (0xA8, .imp .tay),
    (0x8A, .imp .txa),
    (0x98, .imp .tya),
    (0x69, .imm .add),
    (0x4C, .abs .jmp),
    (0xEA, .imp .nop),
    (0xD0, .rel .bne),
    (0xF0, .rel .beq) ]

/-- R85: "The opcode byte is compared whole, all eight bits, against the table of rule R89". -/
def opcodeMap (b0 : Byte) : Option OpcodeEntry := opcodeTable.lookup b0

/-- The lengths of the formats, R81 to R84. -/
def entryLength : OpcodeEntry → Nat
  | .imp _ => 1
  | .imm _ => 2
  | .abs _ => 3
  | .rel _ => 2

/-- R91: "The length is a function of `b0` alone"; "An unimplemented opcode has no length". -/
def instrLength (b0 : Byte) : Option Nat := (opcodeMap b0).map entryLength

/-- R87: `addr = (zext(b2) << 8) | zext(b1)`, the high byte second (little-endian, R56). -/
def wordOfBytes (lo hi : Byte) : Word := (hi.zeroExtend 16 <<< 8) ||| lo.zeroExtend 16

/-- R83: `lo`, "bits 7 to 0 of a 16-bit address". -/
def loByte (w : Word) : Byte := w.extractLsb' 0 8

/-- R83: `hi`, "bits 15 to 8 of that address". -/
def hiByte (w : Word) : Byte := w.extractLsb' 8 8

/-- Why bytes are no instruction: the opcode byte is not in the map (R90), or byte number `k` of the
instruction (0 the opcode) is not there. -/
inductive Reject where
  | unimplementedOpcode (b0 : Byte)
  | missingByte (k : Nat)
deriving DecidableEq, Repr

/-- The instruction at the head of a list of bytes, with the bytes that follow it (R80, R102 to R107). The opcode is
looked up before an operand byte is asked for, and the low byte of an absolute operand is asked for before the high
one (R103). -/
def decode : List Byte → Except Reject (Instr × List Byte)
  | [] => .error (.missingByte 0)
  | b0 :: rest =>
    match opcodeMap b0 with
    | none => .error (.unimplementedOpcode b0)
    | some (.imp i) => .ok (i, rest)
    | some (.imm mk) =>
      match rest with
      | [] => .error (.missingByte 1)
      | b1 :: after => .ok (mk b1, after)
    | some (.rel mk) =>
      match rest with
      | [] => .error (.missingByte 1)
      | b1 :: after => .ok (mk b1, after)
    | some (.abs mk) =>
      match rest with
      | [] => .error (.missingByte 1)
      | [_] => .error (.missingByte 2)
      | b1 :: b2 :: after => .ok (mk (wordOfBytes b1 b2), after)

/-- The bytes of an instruction in ascending address order (R80), from the formats R81 to R84 and the map of R89. -/
def encode : Instr → List Byte
  | .lda value => [0xA9, value]
  | .ldx value => [0xA2, value]
  | .ldy value => [0xA0, value]
  | .sta addr => [0x8D, loByte addr, hiByte addr]
  | .stx addr => [0x8E, loByte addr, hiByte addr]
  | .sty addr => [0x8C, loByte addr, hiByte addr]
  | .tax => [0xAA]
  | .tay => [0xA8]
  | .txa => [0x8A]
  | .tya => [0x98]
  | .add value => [0x69, value]
  | .jmp addr => [0x4C, loByte addr, hiByte addr]
  | .nop => [0xEA]
  | .bne offset => [0xD0, offset]
  | .beq offset => [0xF0, offset]

/-- An instruction numbered as spec/opcode_table.json numbers it, laid out as memory holds it: byte `k` is bits
`8k+7 .. 8k` (R80), every bit from `nbits` up is 0, and there are three bytes, the longest instruction's. -/
def tableBytes (nbits w : Nat) : List Byte :=
  [BitVec.ofNat 8 (w % 2 ^ nbits),
   BitVec.ofNat 8 (w % 2 ^ nbits / 2 ^ 8),
   BitVec.ofNat 8 (w % 2 ^ nbits / 2 ^ 16)]

/-- The instruction the decoder reads from a word of the opcode table; none where it rejects. -/
def decodeTableWord (nbits w : Nat) : Option Instr :=
  match decode (tableBytes nbits w) with
  | .ok (i, _) => some i
  | .error _ => none

end Sys2Proof
end

