-- ==== Sys2Proof/Machine/Operands.lean ====
section
/-! DEFINITION. Operand resolution, every form the spec gives (spec/40_cycle_and_addressing.md R103 to R107): the
operand bytes are read from memory, `b1` before `b2`, at integer addresses that are not wrapped (R55, log entry 3). -/

namespace Sys2Proof.Machine

/-- Byte number `k` of the instruction at PC: `MemRead(pc + k, 1)` (R80, R101, R103). -/
def fetchByte (s : State) (k : Nat) : Except Fault Byte := memRead s.mem ((s.pc.toNat : Int) + k)

/-- Immediate resolution, R104. -/
def immOperand (s : State) : Except Fault Byte := fetchByte s 1

/-- Absolute resolution, R105: low byte first (R103, D6, log entry 5), then the high byte. -/
def absOperand (s : State) : Except Fault Word :=
  match fetchByte s 1 with
  | .error f => .error f
  | .ok lo =>
    match fetchByte s 2 with
    | .error f => .error f
    | .ok hi => .ok (wordOfBytes lo hi)

/-- The raw offset byte of a branch, R106: read whether or not the branch will be taken (D5, log entry 4). -/
def relOperand (s : State) : Except Fault Byte := fetchByte s 1

/-- `s8(b)`, R88: `b` if `b < 0x80`, else `b - 0x100`. -/
def s8 (b : Byte) : Int := if b.toNat < 0x80 then (b.toNat : Int) else (b.toNat : Int) - 0x100

/-- R106: `pc + 2 + off`, relative to "the address immediately following the 2-byte branch instruction"; an exact
integer, reduced when it is written to PC. -/
def branchTarget (pc : Word) (offset : Byte) : Int := (pc.toNat : Int) + 2 + s8 offset

end Sys2Proof.Machine
end

