-- ==== Sys2Proof/Machine/JumpNopBranch.lean ====
section
/-! DEFINITION. Jump, no-operation and conditional branches (spec/45_jump_nop_branch.md). -/

namespace Sys2Proof.Machine

/-- R160, `JMP abs`: `PC <- (hi << 8) | lo`; the target is not checked against the memory length (R28). -/
def execJmp (addr : Word) (s : State) : Result := .next (s.setPc (addr.toNat : Int))

/-- R161, `NOP`: PC advance +1 and nothing else. -/
def execNop (s : State) : Result := .next (s.advance 1)

/-- R162, R163: `PC <- (pc + 2 + off) mod 65536` if the branch is taken, else `PC <- (pc + 2) mod 65536`. -/
def branchIf (taken : Bool) (offset : Byte) (s : State) : Result :=
  if taken then .next (s.setPc (branchTarget s.pc offset)) else .next (s.advance 2)

/-- R162, `BNE rel`: taken if Z is false. -/
def execBne (offset : Byte) (s : State) : Result := branchIf (!s.z) offset s

/-- R163, `BEQ rel`: taken if Z is true. -/
def execBeq (offset : Byte) (s : State) : Result := branchIf s.z offset s

end Sys2Proof.Machine
end

