-- ==== Sys2Proof/Machine/Loads.lean ====
section
/-! DEFINITION. Immediate loads (spec/41_loads.md). -/

namespace Sys2Proof.Machine

/-- `r <- value`, PC advance +2; no flag is written (R120 to R122, R29). -/
def loadImmediate (r : Reg8) (value : Byte) (s : State) : Result := .next ((s.setReg r value).advance 2)

/-- R120, `LDA imm`. -/
def execLda (value : Byte) (s : State) : Result := loadImmediate .a value s

/-- R121, `LDX imm`. -/
def execLdx (value : Byte) (s : State) : Result := loadImmediate .x value s

/-- R122, `LDY imm`. -/
def execLdy (value : Byte) (s : State) : Result := loadImmediate .y value s

end Sys2Proof.Machine
end

