-- ==== Sys2Proof/Machine/Stores.lean ====
section
/-! DEFINITION. Absolute stores (spec/42_stores.md): the only instructions that write memory. -/

namespace Sys2Proof.Machine

/-- `MemWrite(addr, 1, r)`, then PC advance +3 (R130 to R132). A write out of range raises and nothing changes. -/
def storeAbsolute (r : Reg8) (addr : Word) (s : State) : Result :=
  match memWrite s.mem (addr.toNat : Int) (s.reg r) with
  | .error f => raise f
  | .ok m => .next ({ s with mem := m }.advance 3)

/-- R130, `STA abs`. -/
def execSta (addr : Word) (s : State) : Result := storeAbsolute .a addr s

/-- R131, `STX abs`. -/
def execStx (addr : Word) (s : State) : Result := storeAbsolute .x addr s

/-- R132, `STY abs`. -/
def execSty (addr : Word) (s : State) : Result := storeAbsolute .y addr s

end Sys2Proof.Machine
end

