-- ==== Sys2Proof/Machine/Transfers.lean ====
section
/-! DEFINITION. Register transfers (spec/43_transfers.md). -/

namespace Sys2Proof.Machine

/-- `dst <- src`, PC advance +1; no flag is written (R140 to R143). -/
def transfer (src dst : Reg8) (s : State) : Result := .next ((s.setReg dst (s.reg src)).advance 1)

/-- R140, `TAX`. -/
def execTax (s : State) : Result := transfer .a .x s

/-- R141, `TAY`. -/
def execTay (s : State) : Result := transfer .a .y s

/-- R142, `TXA`. -/
def execTxa (s : State) : Result := transfer .x .a s

/-- R143, `TYA`. -/
def execTya (s : State) : Result := transfer .y .a s

end Sys2Proof.Machine
end

