-- ==== Sys2Proof/Machine/Dispatch.lean ====
section
/-! DEFINITION. One arm per instruction (spec/40_cycle_and_addressing.md R113). -/

namespace Sys2Proof.Machine

def exec (i : Instr) (s : State) : Host.Outcome State Fault Refusal :=
  match i with
  | .lda value => Sys2Proof.Machine.execLda value s
  | .ldx value => Sys2Proof.Machine.execLdx value s
  | .ldy value => Sys2Proof.Machine.execLdy value s
  | .sta addr => Sys2Proof.Machine.execSta addr s
  | .stx addr => Sys2Proof.Machine.execStx addr s
  | .sty addr => Sys2Proof.Machine.execSty addr s
  | .tax => Sys2Proof.Machine.execTax s
  | .tay => Sys2Proof.Machine.execTay s
  | .txa => Sys2Proof.Machine.execTxa s
  | .tya => Sys2Proof.Machine.execTya s
  | .add value => Sys2Proof.Machine.execAdd value s
  | .jmp addr => Sys2Proof.Machine.execJmp addr s
  | .nop => Sys2Proof.Machine.execNop s
  | .bne offset => Sys2Proof.Machine.execBne offset s
  | .beq offset => Sys2Proof.Machine.execBeq offset s

end Sys2Proof.Machine
end

