-- ==== Sys2Proof/Machine/Fetch.lean ====
section
/-! DEFINITION. Fetch and decode from memory (spec/40_cycle_and_addressing.md R101 to R107), one byte at a time in
the access order of spec/20_memory.md R58; and placing bytes at PC, for `withFetchWord`. -/

namespace Sys2Proof.Machine

/-- The instruction at PC, with the checks of R177 in their order: the opcode fetch (R101), the lookup (R102, before
any operand byte is read), then the operand bytes the opcode's format has (R104 to R107). -/
def fetch (s : State) : Except Fault Instr :=
  match fetchByte s 0 with
  | .error f => .error f
  | .ok b0 =>
    match opcodeMap b0 with
    | none => .error (.unimplementedOpcode b0)
    | some (.imp i) => .ok i
    | some (.imm mk) =>
      match immOperand s with
      | .error f => .error f
      | .ok value => .ok (mk value)
    | some (.abs mk) =>
      match absOperand s with
      | .error f => .error f
      | .ok addr => .ok (mk addr)
    | some (.rel mk) =>
      match relOperand s with
      | .error f => .error f
      | .ok offset => .ok (mk offset)

/-- Bytes written to consecutive cells from `a` up, as the host writes a program (R6, R194); a byte whose cell does not
exist is dropped. -/
def Memory.place (m : Memory) (a : Nat) : List Byte → Memory
  | [] => m
  | b :: bs => Memory.place (if a < m.size then m.setCell a b else m) (a + 1) bs

/-- The state with bytes placed where the next opcode is fetched; nothing else changes. -/
def State.placeAtPc (s : State) (bytes : List Byte) : State :=
  { s with mem := s.mem.place s.pc.toNat bytes }

/-- The readable bytes from PC up, at most the longest instruction's three: those before the first address out of
range. -/
def State.codeWindow (s : State) : List Byte :=
  (([0, 1, 2].map fun k => s.pc.toNat + k).takeWhile fun a => decide (a < s.mem.size)).map s.mem.cell

end Sys2Proof.Machine
end

