-- ==== Sys2Proof/Machine/Step.lean ====
section
/-! DEFINITION. The step (spec/40_cycle_and_addressing.md R100, R113) and `withFetchWord`. -/

namespace Sys2Proof.Machine

/-- One `step` transaction, R113: fetch and decode the instruction at PC, then execute it. Every read of the step
precedes every write (R103, R109), so fetching the operands here and applying the effect in `exec` is the order of the
rules. -/
def step (s : State) : Host.Outcome State Fault Refusal :=
  match fetch s with
  | .error f => raise f
  | .ok i => exec i s

/-- `s` with a word of the opcode table stored at PC, where `step` fetches. Nothing else changes; a byte that would lie
beyond the memory is dropped (log entry 9). -/
def State.withFetchWord (s : State) (nbits w : Nat) : State := s.placeAtPc (tableBytes nbits w)

end Sys2Proof.Machine
end

