-- ==== Sys2Proof/Machine/Accesses.lean ====
section
/-! DEFINITION. The memory accesses one step makes, in order (spec/20_memory.md R58). The step itself does not need
the list; the statements use it to say which access of a step a fault comes from. -/

namespace Sys2Proof.Machine

/-- One access; every access is exactly one byte (R58). -/
inductive Access where
  | read (addr : Int)
  | write (addr : Int)
deriving DecidableEq, Repr

/-- The address of an access. -/
def Access.addr : Access → Int
  | .read addr => addr
  | .write addr => addr

/-- The cell a store writes (R130 to R132); no other instruction writes memory (R70). -/
def storeTarget : Instr → Option Word
  | .lda _ => none
  | .ldx _ => none
  | .ldy _ => none
  | .sta addr => some addr
  | .stx addr => some addr
  | .sty addr => some addr
  | .tax => none
  | .tay => none
  | .txa => none
  | .tya => none
  | .add _ => none
  | .jmp _ => none
  | .nop => none
  | .bne _ => none
  | .beq _ => none

/-- The write access of a store, none for any other instruction. -/
def storeAccesses (i : Instr) : List Access :=
  match storeTarget i with
  | none => []
  | some addr => [.write (addr.toNat : Int)]

/-- R58: "first the read of the opcode at `pc`; then, if the opcode is one of the 15 and its form has operand bytes,
the read of `pc+1`; then, for the absolute form, the read of `pc+2`; then, for a store, the write of the target cell";
it "stops at the first one that raises, so that later ones are not made". -/
def accesses (s : State) : List Access :=
  .read (s.pc.toNat : Int) ::
    match fetchByte s 0 with
    | .error _ => []
    | .ok b0 =>
      match opcodeMap b0 with
      | none => []
      | some (.imp _) => []
      | some (.imm _) => [.read ((s.pc.toNat : Int) + 1)]
      | some (.rel _) => [.read ((s.pc.toNat : Int) + 1)]
      | some (.abs mk) =>
        .read ((s.pc.toNat : Int) + 1) ::
          match fetchByte s 1 with
          | .error _ => []
          | .ok lo =>
            .read ((s.pc.toNat : Int) + 2) ::
              match fetchByte s 2 with
              | .error _ => []
              | .ok hi => storeAccesses (mk (wordOfBytes lo hi))

end Sys2Proof.Machine
end

