-- ==== Sys2Proof/Machine/HostPort.lean ====
section
/-! DEFINITION. The block's boundary (spec/00_scope.md section 4, R5 to R8; spec/70_reset_and_hazards.md R190): what
the host can ask of the machine between steps, each request one atomic transaction (R59, R64), with its answer. -/

namespace Sys2Proof.Machine

/-- The operations of the interface summary of spec/00_scope.md section 4. Addresses and values are integers (D14). -/
inductive Transaction where
  /-- `reset`, R190 -/
  | reset
  /-- `step`, R5 -/
  | step
  /-- `read_byte(address)`, R6, R51 -/
  | readByte (address : Int)
  /-- `write_byte(address, value)`, R6, R52 -/
  | writeByte (address value : Int)
  /-- `size()`, R53 -/
  | size
  /-- register `get`, R7 -/
  | getReg (r : RegName)
  /-- flag `get`, R7 -/
  | getFlag (f : FlagName)
  /-- register `set(raw)`, R8; there is no flag write (D10, log entry 8) -/
  | setReg (r : RegName) (raw : Int)
deriving DecidableEq, Repr

/-- What the host is answered. -/
inductive Response where
  /-- done; nothing to report -/
  | ok
  /-- the transaction failed with this fault (R5, R187) -/
  | fault (f : Fault)
  /-- the model gives the instruction no meaning; no step answers so -/
  | refused (r : Refusal)
  /-- the byte read -/
  | byte (b : Byte)
  /-- the memory length, or a register's value -/
  | number (n : Nat)
  /-- a flag's value -/
  | flag (b : Bool)
deriving DecidableEq, Repr

/-- R7: the value of a register. -/
def State.getReg (s : State) : RegName → Nat
  | .r8 r => (s.reg r).toNat
  | .pc => s.pc.toNat

/-- R8: `set(raw)` stores `raw mod 2^width` (R21). -/
def State.presetReg (s : State) (r : RegName) (raw : Int) : State :=
  match r with
  | .r8 r => s.setReg r (toReg8 raw)
  | .pc => s.setPc raw

/-- R7: the value of a flag. -/
def State.getFlag (s : State) : FlagName → Bool
  | .z => s.z
  | .c => s.c

/-- One transaction: the state after it and the answer. A fault leaves the state as it was (R109, R174, R187) and
nothing is latched (R175). `reset` keeps the memory length (R191). -/
def transact (t : Transaction) (s : State) : State × Response :=
  match t with
  | .reset => (State.resetWith s.mem.size Config.zReset Config.cReset, .ok)
  | .step =>
    match step s with
    | .next s' => (s', .ok)
    | .fault f => (s, .fault f)
    | .refused r => (s, .refused r)
  | .readByte address =>
    match memRead s.mem address with
    | .ok b => (s, .byte b)
    | .error f => (s, .fault f)
  | .writeByte address value =>
    match memWrite s.mem address (toReg8 value) with
    | .ok m => ({ s with mem := m }, .ok)
    | .error f => (s, .fault f)
  | .size => (s, .number s.mem.size)
  | .getReg r => (s, .number (s.getReg r))
  | .getFlag f => (s, .flag (s.getFlag f))
  | .setReg r raw => (s.presetReg r raw, .ok)

/-- The state after a list of transactions, first to last (R202: nothing else happens to the machine). -/
def transactAll : List Transaction → State → State
  | [], s => s
  | t :: ts, s => transactAll ts (transact t s).1

end Sys2Proof.Machine
end

