-- ==== Sys2Proof/Safety.lean ====
section
/-! DEFINITION. The terms the statements use: the invariant of the state, runs of steps (spec/70_reset_and_hazards.md
R195, R188: a faulting step is never part of a run), and sequences of instructions. -/

namespace Sys2Proof.Machine

/-- What every reachable state satisfies: the memory is in canonical form, and lists only cells that exist. -/
abbrev State.Inv (s : State) : Prop := s.mem.wf

/-- `n` steps, every one of which must answer a next state; else the first fault or refusal. -/
def run : Nat → State → Result
  | 0, s => .next s
  | n + 1, s =>
    match step s with
    | .next s' => run n s'
    | .fault f => .fault f
    | .refused r => .refused r

/-- R195 (D11, log entry 7): `t` is the result of running from `s` to end address `E`: the state at the first moment
at which a run from `s` has PC at `E`. -/
def HasResult (E : Word) (s t : State) : Prop :=
  ∃ n, run n s = .next t ∧ t.pc = E ∧ ∀ m < n, ∀ u, run m s = .next u → u.pc ≠ E

/-- Instructions executed one after another. -/
def execAll : List Instr → State → Result
  | [], s => .next s
  | i :: is, s =>
    match exec i s with
    | .next s' => execAll is s'
    | .fault f => .fault f
    | .refused r => .refused r

/-- Byte number `k` of the instruction at PC lies in memory: `pc + k < MEMSIZE`, unwrapped (R55, log entry 3). -/
def State.has (s : State) (k : Nat) : Bool := decide (s.pc.toNat + k < s.mem.size)

/-- What byte number `k` of the instruction at PC is. -/
def State.byteAt (s : State) (k : Nat) : Byte := s.mem.cell (s.pc.toNat + k)

/-- The 16-bit operand at PC: the byte at `pc+2` above the byte at `pc+1` (R87). -/
def State.wordAt (s : State) : Word := s.byteAt 2 ++ s.byteAt 1

/-- A function applied to the next state, a fault or a refusal kept. -/
def mapNext (f : State → State) : Result → Result
  | .next s => .next (f s)
  | .fault f => .fault f
  | .refused r => .refused r

/-- The next state, if there is one. -/
def nextOf : Result → Option State
  | .next s => some s
  | .fault _ => none
  | .refused _ => none

/-- The fault, if there is one. -/
def faultOf : Result → Option Fault
  | .next _ => none
  | .fault f => some f
  | .refused _ => none

end Sys2Proof.Machine
end

