-- ==== Sys2Proof/Certificates/Slice0/Obligations.lean ====
section
/-! DEFINITION. The statements for the provers, from the numbered rules of spec/. Each docstring names the rule; where
a clause rests on a decision the spec marks as its own (D<n> of spec/92_eei_decisions.md) or on the model's own log, it
says so. `s.has k` says that byte `k` of the instruction at PC lies in memory, `s.byteAt k` is that byte, `s.wordAt` the
16-bit operand. -/

open Sys2Proof Sys2Proof.Machine

namespace Sys2Proof.Stmt

/-- The 15 opcode bytes, as R89's sentence lists them. -/
def opcodes : List Byte :=
  [0xA9, 0xA2, 0xA0, 0x8D, 0x8E, 0x8C, 0xAA, 0xA8, 0x8A, 0x98, 0x69, 0x4C, 0xEA, 0xD0, 0xF0]

/-- The opcode bytes of length 1, 2 and 3 (R91). -/
def opcodes1 : List Byte := [0xAA, 0xA8, 0x8A, 0x98, 0xEA]
def opcodes2 : List Byte := [0xA9, 0xA2, 0xA0, 0x69, 0xD0, 0xF0]
def opcodes3 : List Byte := [0x8D, 0x8E, 0x8C, 0x4C]

/-- The opcode bytes of the stores (R89). -/
def storeOpcodes : List Byte := [0x8D, 0x8E, 0x8C]

/-- `OutOfRange(pc)` at the opcode fetch, for every state whose PC lies outside memory (R101). -/
def OpcodeFetchFaults : Prop := ∀ s : State, ¬ s.has 0 → step s = .fault (.outOfRange s.pc.toNat)

/-- A one-byte instruction, whole: with opcode `b0` at PC the step has exactly this effect. -/
def StepsImplied (b0 : Byte) (effect : State → State) : Prop :=
  ∀ s : State, s.has 0 → s.byteAt 0 = b0 → step s = .next (effect s)

/-- A two-byte instruction, whole: with opcode `b0` at PC the step has exactly this effect of the byte at `pc + 1`,
or faults with `OutOfRange(pc + 1)`. -/
def StepsWithByte (b0 : Byte) (effect : State → Byte → State) : Prop :=
  ∀ s : State, s.has 0 → s.byteAt 0 = b0 →
    (s.has 1 → step s = .next (effect s (s.byteAt 1))) ∧
    (¬ s.has 1 → step s = .fault (.outOfRange ((s.pc.toNat : Int) + 1)))

/-- The operand fetches of a three-byte instruction: with opcode `b0` at PC, `OutOfRange(pc + 1)` and
`OutOfRange(pc + 2)` in that order. -/
def AbsoluteOperandFaults (b0 : Byte) : Prop :=
  ∀ s : State, s.has 0 → s.byteAt 0 = b0 →
    (¬ s.has 1 → step s = .fault (.outOfRange ((s.pc.toNat : Int) + 1))) ∧
    (s.has 1 → ¬ s.has 2 → step s = .fault (.outOfRange ((s.pc.toNat : Int) + 2)))

/-- `r` is `s` after byte `v` is stored at `addr` and PC advances by 3, everything else as it was: every register and
flag, the memory length, and every cell but the one at `addr`. -/
def IsStore (r : Result) (s : State) (addr : Word) (v : Byte) : Prop :=
  ∃ m : Memory, r = .next { s with mem := m, pc := s.pc + 3 } ∧ m.size = s.mem.size ∧
    ∀ a : Nat, m.cell a = if a = addr.toNat then v else s.mem.cell a

/-- A store instruction, whole, with the register `v` it stores. -/
def StepsStore (b0 : Byte) (v : State → Byte) : Prop :=
  AbsoluteOperandFaults b0 ∧
  ∀ s : State, s.has 2 → s.byteAt 0 = b0 →
    (s.wordAt.toNat < s.mem.size → IsStore (step s) s s.wordAt (v s)) ∧
    (s.mem.size ≤ s.wordAt.toNat → step s = .fault (.outOfRange s.wordAt.toNat))

/-- The fault a step raises, by R177's ordered checks, read off the state alone; none if the step completes. -/
def firstFault (s : State) : Option Fault :=
  if ¬ s.has 0 then some (.outOfRange s.pc.toNat)
  else if s.byteAt 0 ∉ opcodes then some (.unimplementedOpcode (s.byteAt 0))
  else if s.byteAt 0 ∉ opcodes1 ∧ ¬ s.has 1 then some (.outOfRange ((s.pc.toNat : Int) + 1))
  else if s.byteAt 0 ∈ opcodes3 ∧ ¬ s.has 2 then some (.outOfRange ((s.pc.toNat : Int) + 2))
  else if s.byteAt 0 ∈ storeOpcodes ∧ s.mem.size ≤ s.wordAt.toNat then some (.outOfRange s.wordAt.toNat)
  else none

/-- The machine goes on from `t` (R195, R111): one more step executes the byte at PC. It completes wherever no check of
R177 fails; a `NOP` only advances PC, and an unwritten 0x00 faults (R193). -/
def DoesNotStop (t : State) : Prop :=
  (firstFault t = none → ∃ u : State, step t = .next u) ∧
  (t.has 0 → t.byteAt 0 = 0xEA → step t = .next { t with pc := t.pc + 1 }) ∧
  (t.has 0 → t.byteAt 0 = 0x00 → step t = .fault (.unimplementedOpcode 0x00))

/-- The integer R27 gives as an instruction's new PC before it is reduced; the offset is the two's-complement value. -/
def newPc (i : Instr) (s : State) : Int :=
  match i with
  | .lda _ => s.pc.toNat + 2
  | .ldx _ => s.pc.toNat + 2
  | .ldy _ => s.pc.toNat + 2
  | .sta _ => s.pc.toNat + 3
  | .stx _ => s.pc.toNat + 3
  | .sty _ => s.pc.toNat + 3
  | .tax => s.pc.toNat + 1
  | .tay => s.pc.toNat + 1
  | .txa => s.pc.toNat + 1
  | .tya => s.pc.toNat + 1
  | .add _ => s.pc.toNat + 2
  | .jmp addr => addr.toNat
  | .nop => s.pc.toNat + 1
  | .bne offset => if s.z then s.pc.toNat + 2 else s.pc.toNat + 2 + offset.toInt
  | .beq offset => if s.z then s.pc.toNat + 2 + offset.toInt else s.pc.toNat + 2

/-- Is it `ADD`? -/
def isAdd : Instr → Bool
  | .lda _ => false
  | .ldx _ => false
  | .ldy _ => false
  | .sta _ => false
  | .stx _ => false
  | .sty _ => false
  | .tax => false
  | .tay => false
  | .txa => false
  | .tya => false
  | .add _ => true
  | .jmp _ => false
  | .nop => false
  | .bne _ => false
  | .beq _ => false

/-- Is it `BNE` or `BEQ`? -/
def isBranch : Instr → Bool
  | .lda _ => false
  | .ldx _ => false
  | .ldy _ => false
  | .sta _ => false
  | .stx _ => false
  | .sty _ => false
  | .tax => false
  | .tay => false
  | .txa => false
  | .tya => false
  | .add _ => false
  | .jmp _ => false
  | .nop => false
  | .bne _ => true
  | .beq _ => true

/-- The 8-bit register an instruction writes, by the state table of R20; none writes SP. -/
def writtenReg : Instr → Option Reg8
  | .lda _ => some .a
  | .ldx _ => some .x
  | .ldy _ => some .y
  | .sta _ => none
  | .stx _ => none
  | .sty _ => none
  | .tax => some .x
  | .tay => some .y
  | .txa => some .a
  | .tya => some .a
  | .add _ => some .a
  | .jmp _ => none
  | .nop => none
  | .bne _ => none
  | .beq _ => none

end Sys2Proof.Stmt

open Sys2Proof.Stmt

/-! ### Encoding -/

/-- Words written out bit by bit from the `encoding` column of the opcode table (R89) decode to their instructions, one
of each family. -/
def Obligations.SpecWordsDecode : Prop :=
  decodeTableWord 16 0b01000010_10101001 = some (.lda 0x42) ∧
  decodeTableWord 24 0b00000010_00000000_10001101 = some (.sta 0x0200) ∧
  decodeTableWord 8 0b10101010 = some .tax ∧
  decodeTableWord 16 0b00000010_01101001 = some (.add 0x02) ∧
  decodeTableWord 24 0b00010010_00110100_01001100 = some (.jmp 0x1234) ∧
  decodeTableWord 8 0b11101010 = some .nop ∧
  decodeTableWord 16 0b11111010_11010000 = some (.bne 0xFA) ∧
  decodeTableWord 8 0b11111111 = none

/-- R89, with the formats R81 to R84 and R87's address: what each of the 15 opcode bytes decodes to, whatever the
operand bytes and the bytes that follow; and no sixteenth opcode byte decodes. -/
def Obligations.OpcodeMapIsTheTable : Prop :=
  (∀ (b1 b2 : Byte) (rest : List Byte),
    decode (0xA9 :: b1 :: rest) = .ok (.lda b1, rest) ∧
    decode (0xA2 :: b1 :: rest) = .ok (.ldx b1, rest) ∧
    decode (0xA0 :: b1 :: rest) = .ok (.ldy b1, rest) ∧
    decode (0x8D :: b1 :: b2 :: rest) = .ok (.sta (b2 ++ b1), rest) ∧
    decode (0x8E :: b1 :: b2 :: rest) = .ok (.stx (b2 ++ b1), rest) ∧
    decode (0x8C :: b1 :: b2 :: rest) = .ok (.sty (b2 ++ b1), rest) ∧
    decode (0xAA :: rest) = .ok (.tax, rest) ∧
    decode (0xA8 :: rest) = .ok (.tay, rest) ∧
    decode (0x8A :: rest) = .ok (.txa, rest) ∧
    decode (0x98 :: rest) = .ok (.tya, rest) ∧
    decode (0x69 :: b1 :: rest) = .ok (.add b1, rest) ∧
    decode (0x4C :: b1 :: b2 :: rest) = .ok (.jmp (b2 ++ b1), rest) ∧
    decode (0xEA :: rest) = .ok (.nop, rest) ∧
    decode (0xD0 :: b1 :: rest) = .ok (.bne b1, rest) ∧
    decode (0xF0 :: b1 :: rest) = .ok (.beq b1, rest)) ∧
  ∀ (b0 : Byte) (rest : List Byte), b0 ∉ opcodes → decode (b0 :: rest) = .error (.unimplementedOpcode b0)

/-- Decode and encode agree: the encoding of any instruction, every operand at every value, decodes to that instruction
and leaves the bytes that follow it. -/
def Obligations.DecodeOfEncode : Prop :=
  ∀ (i : Instr) (rest : List Byte), decode (encode i ++ rest) = .ok (i, rest)

/-- Every instruction has one encoding: bytes that decode to an instruction are its encoding and what follows. -/
def Obligations.DecodedBytesAreTheEncoding : Prop :=
  ∀ (bytes : List Byte) (i : Instr) (rest : List Byte), decode bytes = .ok (i, rest) → bytes = encode i ++ rest

/-- R91: the length of an instruction is a function of the opcode byte; an unimplemented opcode has none, its step
faults after reading `b0` and reads no further byte. -/
def Obligations.LengthFromOpcodeByte : Prop :=
  (∀ b0 : Byte,
    (instrLength b0 = some 1 ↔ b0 ∈ opcodes1) ∧
    (instrLength b0 = some 2 ↔ b0 ∈ opcodes2) ∧
    (instrLength b0 = some 3 ↔ b0 ∈ opcodes3) ∧
    (instrLength b0 = none ↔ b0 ∉ opcodes)) ∧
  (∀ i : Instr, ∃ b0 : Byte, (encode i).head? = some b0 ∧ instrLength b0 = some (encode i).length) ∧
  (∀ s : State, s.has 0 → instrLength (s.byteAt 0) = none →
    step s = .fault (.unimplementedOpcode (s.byteAt 0)) ∧ accesses s = [.read s.pc.toNat])

/-- R90: 241 of the 256 opcode bytes are unimplemented, executing any of them raises `UnimplementedOpcode(b0)`, and no
operand byte of an implemented one is illegal. -/
def Obligations.UnimplementedOpcodesFault : Prop :=
  ((List.range 256).filter fun n => (opcodeMap (BitVec.ofNat 8 n)).isNone).length = 241 ∧
  (∀ b0 : Byte, (opcodeMap b0).isNone ↔ b0 ∉ opcodes) ∧
  (∀ s : State, s.has 0 → s.byteAt 0 ∉ opcodes → step s = .fault (.unimplementedOpcode (s.byteAt 0))) ∧
  (∀ b0 b1 b2 : Byte, b0 ∈ opcodes → ∃ (i : Instr) (rest : List Byte), decode [b0, b1, b2] = .ok (i, rest))

/-- R172: `UnimplementedOpcode(byte)` is raised exactly when the opcode fetch succeeds and the byte read is none of the
15; it carries that byte, whether operand bytes exist plays no part, and the state is left unchanged. -/
def Obligations.UnimplementedOpcodeExactlyWhen : Prop :=
  ∀ (s : State) (b : Byte),
    (step s = .fault (.unimplementedOpcode b) ↔ (s.has 0 ∧ s.byteAt 0 = b ∧ b ∉ opcodes)) ∧
    (s.has 0 → s.byteAt 0 = b → b ∉ opcodes → transact .step s = (s, .fault (.unimplementedOpcode b)))

/-- The assembler's branch operand (R92, the spec's own notation, D12) and the reach of a branch (R166, derived): a
target is accepted exactly when it lies in `here - 126 .. here + 129`, and a taken branch at `here` with that offset
byte goes to the target, modulo 65536. -/
def Obligations.AssembledBranchReachesTarget : Prop :=
  (∀ here target : Int, (asmOffset here target).isSome = true ↔ (here - 126 ≤ target ∧ target ≤ here + 129)) ∧
  ∀ (s : State) (target : Int) (offset : Byte), asmOffset s.pc.toNat target = some offset →
    (s.z = false → exec (.bne offset) s = .next { s with pc := BitVec.ofInt 16 target }) ∧
    (s.z = true → exec (.beq offset) s = .next { s with pc := BitVec.ofInt 16 target })

/-! ### The step -/

/-- The step runs the decoded instruction (R100, R113): when the bytes at PC decode to an instruction, the step is that
instruction's meaning at the same state. Nothing is done around it: each meaning writes PC itself (R108). -/
def Obligations.StepRunsDecodedInstruction : Prop :=
  ∀ (s : State) (i : Instr) (rest : List Byte), decode s.codeWindow = .ok (i, rest) → step s = exec i s

/-- The same from the encoder's side: when the encoding of `i` lies in memory at PC, the step is `exec i`. -/
def Obligations.StepRunsEncodedInstruction : Prop :=
  ∀ (s : State) (i : Instr),
    (∀ k : Nat, k < (encode i).length → s.has k ∧ (encode i)[k]? = some (s.byteAt k)) → step s = exec i s

/-- Fetching byte by byte (R101 to R107) refines the decoder on the bytes at PC: the step is the meaning of what they
decode to, and each rejection is the fault of the byte concerned. That operand addresses are not wrapped, that the offset
byte of a branch not taken is read, and that the low byte comes first are the spec's own decisions D4, D5 and D6 (log
entries 3, 4 and 5). -/
def Obligations.FetchRefinesDecode : Prop :=
  ∀ s : State, step s =
    match decode s.codeWindow with
    | .ok (i, _) => exec i s
    | .error (.unimplementedOpcode b) => .fault (.unimplementedOpcode b)
    | .error (.missingByte k) => .fault (.outOfRange ((s.pc.toNat : Int) + k))

/-- R177: the first failing check ends the step, the checks being made in the fixed order of that rule; a step that
fails none completes. Rests on the spec's own decisions D4, D5 and D6 (log entries 3, 4, 5). -/
def Obligations.ChecksInFixedOrder : Prop :=
  ∀ s : State,
    (∀ f : Fault, firstFault s = some f → step s = .fault f) ∧
    (firstFault s = none → ∃ t : State, step s = .next t)

/-- R58: the accesses of a step. A step faults with `OutOfRange(a)` exactly when the last access it makes is at an `a`
outside memory, and every access before the last is in range. Rests on D4, D5, D6 (log entries 3, 4, 5). -/
def Obligations.FaultIsTheLastAccess : Prop :=
  ∀ s : State,
    (∀ a : Int, step s = .fault (.outOfRange a) ↔
      ∃ last : Access, (accesses s).getLast? = some last ∧ last.addr = a ∧ s.mem.inRange a = false) ∧
    ∀ before : Access, before ∈ (accesses s).dropLast → s.mem.inRange before.addr = true

/-- R171: the address an `OutOfRange` of a step carries is at or beyond `MEMSIZE`, never negative, and with
`MEMSIZE <= 65536` at most 0x10000. R170: a step never answers anything but a next state or one of the two faults.
The bound rests on D4 and D6 (log entries 3 and 5). -/
def Obligations.FaultPayloadBounds : Prop :=
  ∀ s : State,
    (∀ a : Int, step s = .fault (.outOfRange a) →
      (s.mem.size : Int) ≤ a ∧ (s.mem.size ≤ 65536 → a ≤ 0x10000)) ∧
    ∀ r : Refusal, step s ≠ .refused r

/-- R200, at `MEMSIZE = 65536`: an instruction that ends exactly at 0xFFFF completes, and PC is 0x0000 unless it jumps
or branches; one that would straddle the top faults with `OutOfRange(0x10000)`. All of the latter rests on the spec's
own decision D4 (log entry 3); for a branch not taken also on D5 (log entry 4); and for a three-byte instruction at
0xFFFF, both of whose operand bytes are missing, the payload 0x10000 also on D6 (log entry 5, unsafe for just this
payload). -/
def Obligations.TopOfAddressSpace : Prop :=
  ∀ s : State, s.mem.size = 65536 →
    (∀ n : Nat, instrLength (s.byteAt 0) = some n → s.pc.toNat + n = 65536 →
      ∃ t : State, step s = .next t ∧ (s.byteAt 0 ∉ [0x4C, 0xD0, 0xF0] → t.pc = 0x0000)) ∧
    (∀ n : Nat, instrLength (s.byteAt 0) = some n → 65536 < s.pc.toNat + n →
      step s = .fault (.outOfRange 0x10000))

/-- A word of the opcode table stored by `withFetchWord` is what the next step runs (the model's own definition, log
entry 9), whenever three bytes fit at PC. -/
def Obligations.FetchWordRunsNext : Prop :=
  ∀ (s : State) (nbits w : Nat) (i : Instr), s.has 2 → decodeTableWord nbits w = some i →
    step (s.withFetchWord nbits w) = exec i (s.withFetchWord nbits w) ∧
    (s.withFetchWord nbits w) = { s with mem := (s.withFetchWord nbits w).mem } ∧
    (s.withFetchWord nbits w).mem.size = s.mem.size

/-! ### Loads, transfers, NOP -/

/-- R120 to R122: the whole effect of a load: the register takes the value, PC advances by 2, and nothing else changes,
the flags included. -/
def Obligations.ImmediateLoadResult : Prop :=
  ∀ (value : Byte) (s : State),
    exec (.lda value) s = .next { s with a := value, pc := s.pc + 2 } ∧
    exec (.ldx value) s = .next { s with x := value, pc := s.pc + 2 } ∧
    exec (.ldy value) s = .next { s with y := value, pc := s.pc + 2 }

/-- R120 to R122 from the bytes in memory, with every exception of the rules. That `pc + 1` is not wrapped is D4 (log
entry 3). -/
def Obligations.ImmediateLoadStep : Prop :=
  OpcodeFetchFaults ∧
  StepsWithByte 0xA9 (fun s value => { s with a := value, pc := s.pc + 2 }) ∧
  StepsWithByte 0xA2 (fun s value => { s with x := value, pc := s.pc + 2 }) ∧
  StepsWithByte 0xA0 (fun s value => { s with y := value, pc := s.pc + 2 })

/-- R140 to R143: the whole effect of a transfer, the source keeping its value and no flag written. -/
def Obligations.TransferResult : Prop :=
  ∀ s : State,
    exec .tax s = .next { s with x := s.a, pc := s.pc + 1 } ∧
    exec .tay s = .next { s with y := s.a, pc := s.pc + 1 } ∧
    exec .txa s = .next { s with a := s.x, pc := s.pc + 1 } ∧
    exec .tya s = .next { s with a := s.y, pc := s.pc + 1 }

/-- R140 to R143 from the bytes in memory: only the opcode fetch can fault. -/
def Obligations.TransferStep : Prop :=
  OpcodeFetchFaults ∧
  StepsImplied 0xAA (fun s => { s with x := s.a, pc := s.pc + 1 }) ∧
  StepsImplied 0xA8 (fun s => { s with y := s.a, pc := s.pc + 1 }) ∧
  StepsImplied 0x8A (fun s => { s with a := s.x, pc := s.pc + 1 }) ∧
  StepsImplied 0x98 (fun s => { s with a := s.y, pc := s.pc + 1 })

/-- R161: `NOP` changes PC and nothing else, as a meaning and from its byte in memory; only the opcode fetch can
fault, and PC wraps at 0xFFFF. -/
def Obligations.NopOnlyAdvances : Prop :=
  (∀ s : State, exec .nop s = .next { s with pc := s.pc + 1 }) ∧
  OpcodeFetchFaults ∧
  StepsImplied 0xEA (fun s => { s with pc := s.pc + 1 })

/-! ### Stores -/

/-- R130 to R132: a store whose target exists completes: the register's byte is in the target cell, PC advances by 3,
every register, flag and other cell is as it was. A target outside memory faults with its address. -/
def Obligations.AbsoluteStoreResult : Prop :=
  ∀ (addr : Word) (s : State),
    (addr.toNat < s.mem.size →
      IsStore (exec (.sta addr) s) s addr s.a ∧
      IsStore (exec (.stx addr) s) s addr s.x ∧
      IsStore (exec (.sty addr) s) s addr s.y) ∧
    (s.mem.size ≤ addr.toNat →
      exec (.sta addr) s = .fault (.outOfRange addr.toNat) ∧
      exec (.stx addr) s = .fault (.outOfRange addr.toNat) ∧
      exec (.sty addr) s = .fault (.outOfRange addr.toNat))

/-- R130 to R132 from the bytes in memory, with every exception of the rules in their order. That the operand addresses
are not wrapped is D4, that the low byte comes first is D6 (log entries 3 and 5). -/
def Obligations.AbsoluteStoreStep : Prop :=
  OpcodeFetchFaults ∧
  StepsStore 0x8D (fun s => s.a) ∧
  StepsStore 0x8E (fun s => s.x) ∧
  StepsStore 0x8C (fun s => s.y)

/-- R67 (derived): a byte stored by a step is what the next step fetches, as opcode or as operand, when it lies there. -/
def Obligations.StoredByteIsFetchedNext : Prop :=
  ∀ (s : State) (b0 : Byte) (r : Reg8) (k : Nat), (b0, r) ∈ [((0x8D : Byte), Reg8.a), (0x8E, .x), (0x8C, .y)] →
    s.has 2 → s.byteAt 0 = b0 → s.wordAt.toNat < s.mem.size → (s.pc + 3).toNat + k = s.wordAt.toNat →
    ∃ t : State, step s = .next t ∧ t.byteAt k = s.reg r ∧ fetchByte t k = .ok (s.reg r) ∧
      (k = 0 → s.reg r ∉ opcodes → step t = .fault (.unimplementedOpcode (s.reg r)))

/-! ### ADD -/

/-- R150: the ALU's add, for all 65536 pairs of bytes. -/
def Obligations.AluAddFormula : Prop :=
  ∀ a b : Byte,
    (aluAdd a b).result.toNat = (a.toNat + b.toNat) % 256 ∧
    ((aluAdd a b).carry = true ↔ a.toNat + b.toNat > 255) ∧
    ((aluAdd a b).zero = true ↔ (a.toNat + b.toNat) % 256 = 0) ∧
    (((aluAdd a b).zero = true ∧ (aluAdd a b).carry = true) ↔ a.toNat + b.toNat = 256)

/-- R152: the whole effect of `ADD imm`: A is the sum modulo 256, Z and C are both written, PC advances by 2, X, Y, SP
and memory are as they were. -/
def Obligations.AddResult : Prop :=
  ∀ (value : Byte) (s : State),
    exec (.add value) s =
      .next { s with
        a := s.a + value
        z := decide ((s.a.toNat + value.toNat) % 256 = 0)
        c := decide (s.a.toNat + value.toNat > 255)
        pc := s.pc + 2 }

/-- R152 from the bytes in memory, with its exceptions, on which nothing changes, the flags included. That `pc + 1` is
not wrapped is D4 (log entry 3). -/
def Obligations.AddStep : Prop :=
  OpcodeFetchFaults ∧
  StepsWithByte 0x69 (fun s value =>
    { s with
      a := s.a + value
      z := decide ((s.a.toNat + value.toNat) % 256 = 0)
      c := decide (s.a.toNat + value.toNat > 255)
      pc := s.pc + 2 })

/-- R151: the add has no carry input: from two states that differ in C alone the results agree in everything, the new
flags included. -/
def Obligations.AddTakesNoCarryIn : Prop :=
  ∀ (value : Byte) (s : State) (c : Bool),
    exec (.add value) { s with c := c } = exec (.add value) s ∧
    ∃ t : State, exec (.add value) s = .next t ∧ t.a.toNat = (s.a.toNat + value.toNat) % 256

/-- R153 and R93 (their derived parts): adding `256 - n` subtracts `n`, sets Z exactly when A was `n` and C exactly when
there is no borrow; adding 0 tests A for zero and clears C. -/
def Obligations.SubtractionIdiom : Prop :=
  (∀ (n : Nat) (s : State), 1 ≤ n → n ≤ 255 →
    exec (.add (BitVec.ofNat 8 (256 - n))) s =
      .next { s with
        a := BitVec.ofInt 8 ((s.a.toNat : Int) - n)
        z := decide (s.a.toNat = n)
        c := decide (n ≤ s.a.toNat)
        pc := s.pc + 2 }) ∧
  (∀ s : State, exec (.add 0) s = .next { s with z := decide (s.a = 0), c := false, pc := s.pc + 2 })

/-! ### Jump and branches -/

/-- R160: the whole effect of `JMP abs`: PC takes the address, whether or not it exists, and nothing else changes; with
the exceptions of the operand fetches from the bytes in memory. The operand order is D6, the unwrapped addresses D4 (log
entries 3 and 5). -/
def Obligations.JumpResult : Prop :=
  (∀ (addr : Word) (s : State), exec (.jmp addr) s = .next { s with pc := addr }) ∧
  OpcodeFetchFaults ∧
  AbsoluteOperandFaults 0x4C ∧
  ∀ s : State, s.has 2 → s.byteAt 0 = 0x4C → step s = .next { s with pc := s.wordAt }

/-- R88: the offset byte is the signed number `b` or `b - 0x100`, in -128 to 127, unscaled, added to `pc + 2` and
reduced modulo 65536; and the whole effect of `BNE` and `BEQ` (R162, R163): the target if Z is false (true), else the
next instruction, and nothing else changes. -/
def Obligations.BranchResult : Prop :=
  ∀ (offset : Byte) (s : State), ∃ off : Int,
    (offset.toNat < 0x80 → off = offset.toNat) ∧ (0x80 ≤ offset.toNat → off = (offset.toNat : Int) - 0x100) ∧
    -128 ≤ off ∧ off ≤ 127 ∧
    (s.z = false →
      exec (.bne offset) s = .next { s with pc := BitVec.ofInt 16 ((s.pc.toNat : Int) + 2 + off) } ∧
      exec (.beq offset) s = .next { s with pc := s.pc + 2 }) ∧
    (s.z = true →
      exec (.bne offset) s = .next { s with pc := s.pc + 2 } ∧
      exec (.beq offset) s = .next { s with pc := BitVec.ofInt 16 ((s.pc.toNat : Int) + 2 + off) })

/-- R162 and R163 from the bytes in memory: the offset byte is read whether or not the branch is taken (D5, log entry
4), at an unwrapped address (D4, log entry 3). -/
def Obligations.BranchStep : Prop :=
  OpcodeFetchFaults ∧
  StepsWithByte 0xD0 (fun s offset =>
    { s with pc := if s.z then s.pc + 2 else s.pc + 2 + offset.signExtend 16 }) ∧
  StepsWithByte 0xF0 (fun s offset =>
    { s with pc := if s.z then s.pc + 2 + offset.signExtend 16 else s.pc + 2 })

/-- R27: whenever an instruction completes, the PC stored is the integer the rule gives for it, modulo 65536. -/
def Obligations.PcIsComputedValueMod : Prop :=
  ∀ (i : Instr) (s t : State), exec i s = .next t → (t.pc.toNat : Int) = newPc i s % 65536

/-- R28 (derived): no write of PC is checked: `JMP` to an address outside memory completes, and so does a taken branch;
whichever instruction left PC outside memory, the next step faults with `OutOfRange(PC)`. -/
def Obligations.TransferOutsideMemoryFaultsNextStep : Prop :=
  (∀ (addr : Word) (s : State), s.mem.size ≤ addr.toNat →
    ∃ t : State, exec (.jmp addr) s = .next t ∧ t.pc = addr ∧ step t = .fault (.outOfRange addr.toNat)) ∧
  (∀ (offset : Byte) (s : State), s.mem.size ≤ (s.pc + 2 + offset.signExtend 16).toNat →
    ∃ t : State, (if s.z then exec (.beq offset) s else exec (.bne offset) s) = .next t ∧
      t.pc = s.pc + 2 + offset.signExtend 16 ∧ step t = .fault (.outOfRange t.pc.toNat)) ∧
  (∀ (i : Instr) (s t : State), exec i s = .next t → s.mem.size ≤ t.pc.toNat →
    step t = .fault (.outOfRange t.pc.toNat))

/-- R165 (derived): a `JMP` to itself, and a taken branch with offset 0xFE, run for ever: after any number of steps the
state is what it was. -/
def Obligations.SelfTransferLoopsForever : Prop :=
  ∀ (s : State) (n : Nat),
    (s.has 2 → s.byteAt 0 = 0x4C → s.wordAt = s.pc → run n s = .next s) ∧
    (s.has 1 → s.byteAt 0 = 0xD0 → s.byteAt 1 = 0xFE → s.z = false → run n s = .next s) ∧
    (s.has 1 → s.byteAt 0 = 0xF0 → s.byteAt 1 = 0xFE → s.z = true → run n s = .next s)

/-! ### What instructions leave alone -/

/-- R29 and R30: of all instructions only `ADD` writes the flags, after an `ADD` they are as those rules say, only the
branches read Z, and no instruction reads C. -/
def Obligations.FlagsWrittenByAddReadByBranches : Prop :=
  (∀ (i : Instr) (s t : State), isAdd i = false → exec i s = .next t → t.z = s.z ∧ t.c = s.c) ∧
  (∀ (value : Byte) (s : State), ∃ t : State, exec (.add value) s = .next t ∧
    (t.z = true ↔ t.a = 0) ∧ (t.c = true ↔ s.a.toNat + value.toNat > 255)) ∧
  (∀ (i : Instr) (s : State) (z : Bool), isBranch i = false →
    exec i { s with z := z } = mapNext (fun t => { t with z := if isAdd i then t.z else z }) (exec i s)) ∧
  (∀ (i : Instr) (s : State) (c : Bool),
    exec i { s with c := c } = mapNext (fun t => { t with c := if isAdd i then t.c else c }) (exec i s))

/-- The frame of every instruction: a completed instruction changes no 8-bit register but the one R20's table says it
writes, no cell but the one a store targets, and not the memory length. -/
def Obligations.RegistersAndMemoryFrame : Prop :=
  ∀ (i : Instr) (s t : State), exec i s = .next t →
    (∀ r : Reg8, writtenReg i ≠ some r → t.reg r = s.reg r) ∧
    (∀ a : Nat, (∀ addr : Word, storeTarget i = some addr → a ≠ addr.toNat) → t.mem.cell a = s.mem.cell a) ∧
    (storeTarget i = none → t.mem = s.mem) ∧
    t.mem.size = s.mem.size

/-- R25 and R53: SP and the memory length keep their values through any run. -/
def Obligations.SpAndMemoryLengthNeverChange : Prop :=
  ∀ (n : Nat) (s t : State), run n s = .next t → t.sp = s.sp ∧ t.mem.size = s.mem.size

/-- R25: SP "keeps whatever value reset or the host last gave it, for ever; a program cannot observe it"; nor can it
observe C (R30). Two machines that differ in those alone run alike for any number of steps: the same fault, or next
states that agree in everything else, where each keeps its own SP and C is either the same in both or what each started
with. -/
def Obligations.SpAndCarryUnobservable : Prop :=
  ∀ (n : Nat) (s : State) (sp : Byte) (c : Bool),
    match run n s with
    | .next t => ∃ c' : Bool, run n { s with sp := sp, c := c } = .next { t with sp := sp, c := c' } ∧
        t.sp = s.sp ∧ (c' = t.c ∨ (c' = c ∧ t.c = s.c))
    | .fault f => run n { s with sp := sp, c := c } = .fault f
    | .refused r => run n { s with sp := sp, c := c } = .refused r

/-- R32 (derived): from any state, instructions alone reach every combination of A, X, Y, Z and C. -/
def Obligations.EveryFlagCombinationReachable : Prop :=
  ∀ (s : State) (a x y : Byte) (z c : Bool), ∃ (is : List Instr) (t : State),
    execAll is s = .next t ∧ t.a = a ∧ t.x = x ∧ t.y = y ∧ t.z = z ∧ t.c = c

/-! ### Memory -/

/-- R51 and R52 through the host's port: a write in range is read back modulo 256 and changes that one cell and nothing
else; a read in range answers the cell and changes nothing; outside the range, negative addresses included, both fail
with the address and change nothing (R187). -/
def Obligations.MemoryReadWriteContract : Prop :=
  ∀ (s : State) (a v : Int),
    (0 ≤ a → a < s.mem.size → ∃ m : Memory,
      transact (.writeByte a v) s = ({ s with mem := m }, .ok) ∧
      m.size = s.mem.size ∧
      (∀ b : Nat, m.cell b = if (b : Int) = a then BitVec.ofInt 8 v else s.mem.cell b) ∧
      transact (.readByte a) { s with mem := m } = ({ s with mem := m }, .byte (BitVec.ofInt 8 v)) ∧
      transact (.readByte a) s = (s, .byte (s.mem.cell a.toNat))) ∧
    (a < 0 ∨ (s.mem.size : Int) ≤ a →
      transact (.writeByte a v) s = (s, .fault (.outOfRange a)) ∧
      transact (.readByte a) s = (s, .fault (.outOfRange a)))

/-- R64: a byte the host writes before a step is what that step fetches, and a byte a store wrote is what the host's
next read gets. -/
def Obligations.HostAccessesTakeEffectAtOnce : Prop :=
  (∀ (s : State) (k : Nat) (v : Int), s.has k →
    fetchByte (transact (.writeByte ((s.pc.toNat : Int) + k) v) s).1 k = .ok (BitVec.ofInt 8 v)) ∧
  (∀ (s : State) (b0 : Byte) (r : Reg8), (b0, r) ∈ [((0x8D : Byte), Reg8.a), (0x8E, .x), (0x8C, .y)] →
    s.has 2 → s.byteAt 0 = b0 → s.wordAt.toNat < s.mem.size →
    (transact (.readByte s.wordAt.toNat) (transact .step s).1).2 = .byte (s.reg r))

/-- Equal memories are equal data: two memories in canonical form, of one length, that agree in every cell are the
same. The canonical form is the model's own representation of the array of cells (DESIGN CHOICE, log entry 10), not a
rule of the spec; the array it stands for is that of R50 and R36. -/
def Obligations.CanonicalMemoryIsExtensional : Prop :=
  ∀ m n : Memory, m.wf → n.wf → m.size = n.size → (∀ a : Nat, m.cell a = n.cell a) → m = n

/-- Every step keeps the invariant: the memory stays in canonical form, with every listed cell inside `MEMSIZE`. The
canonical form is the model's own representation of the array of cells (DESIGN CHOICE, log entry 10), not a rule of the
spec. -/
def Obligations.StepKeepsCanonicalMemory : Prop :=
  ∀ s t : State, s.Inv → step s = .next t → t.Inv

/-- However the host interleaves its accesses with steps (R202), the invariant holds from any state that has it, and the
memory length never changes (R53, R191). What the host can do, and that reset is construction, are the spec's own
decisions D1, D9, D10 and D14 (log entry 8, unsafe for a claim over every interleaving if the host has a power the spec
does not list); the canonical form is the model's own representation (DESIGN CHOICE, log entry 10). -/
def Obligations.HostInterleavingKeepsInvariant : Prop :=
  ∀ (ts : List Transaction) (s : State), s.Inv →
    (transactAll ts s).Inv ∧ (transactAll ts s).mem.size = s.mem.size

/-! ### Reset -/

/-- The reset state has the invariant, at every value of the three parameters. The invariant is the canonical form of the
memory, the model's own representation (DESIGN CHOICE, log entry 10); that every cell is then 0x00 is R40. -/
def Obligations.ResetIsCanonical : Prop :=
  State.reset.Inv ∧ ∀ (memSize : Nat) (z c : Bool), (State.resetWith memSize z c).Inv

/-- R40: what reset leaves in the registers and in every cell of the memory. -/
def Obligations.ResetValues : Prop :=
  ∀ (memSize : Nat) (z c : Bool),
    (State.resetWith memSize z c).a = 0x00 ∧
    (State.resetWith memSize z c).x = 0x00 ∧
    (State.resetWith memSize z c).y = 0x00 ∧
    (State.resetWith memSize z c).pc = 0x0000 ∧
    (State.resetWith memSize z c).sp = 0xFF ∧
    (State.resetWith memSize z c).mem.size = memSize ∧
    ∀ a : Int, 0 ≤ a → a < memSize → memRead (State.resetWith memSize z c).mem a = .ok 0x00

/-- R190 and R191 (reset is construction: D9, log entry 8): `reset` never fails, discards every earlier effect, memory contents
included, and keeps the memory length. The flags' values after it are the model's choice (log entry 2), so this says
only that they do not depend on the state before. -/
def Obligations.ResetDiscardsEverything : Prop :=
  ∀ s t : State, s.mem.size = t.mem.size →
    (transact .reset s).2 = .ok ∧
    (transact .reset s).1 = (transact .reset t).1 ∧
    ∃ z c : Bool, (transact .reset s).1 = State.resetWith s.mem.size z c

/-- R193 (derived): if the host loads nothing the first step after reset faults, whatever the flags' reset values. -/
def Obligations.EmptyMachineFaults : Prop :=
  ∀ (memSize : Nat) (z c : Bool),
    (1 ≤ memSize → step (State.resetWith memSize z c) = .fault (.unimplementedOpcode 0x00)) ∧
    (memSize = 0 → step (State.resetWith memSize z c) = .fault (.outOfRange 0))

/-! ### The host's ports and faults -/

/-- R21 through R8's preset port: `set(raw)` then `get()` gives `raw mod 2^width` for any integer, no other register, no
flag and no memory changes, and it never fails. -/
def Obligations.RegisterSetGetWraps : Prop :=
  ∀ (s : State) (r : RegName) (raw : Int),
    (transact (.setReg r raw) s).2 = .ok ∧
    (((transact (.setReg r raw) s).1.getReg r : Nat) : Int) = raw % (if r = .pc then 65536 else 256) ∧
    (∀ q : RegName, q ≠ r → (transact (.setReg r raw) s).1.getReg q = s.getReg q) ∧
    (∀ f : FlagName, (transact (.setReg r raw) s).1.getFlag f = s.getFlag f) ∧
    (transact (.setReg r raw) s).1.mem = s.mem

/-- R7: the host reads the value of every register, both flags and any cell of memory, and `size()` the memory length
(R53); reading changes nothing. -/
def Obligations.InspectionChangesNothing : Prop :=
  ∀ s : State,
    transact (.getReg (.r8 .a)) s = (s, .number s.a.toNat) ∧
    transact (.getReg (.r8 .x)) s = (s, .number s.x.toNat) ∧
    transact (.getReg (.r8 .y)) s = (s, .number s.y.toNat) ∧
    transact (.getReg (.r8 .sp)) s = (s, .number s.sp.toNat) ∧
    transact (.getReg .pc) s = (s, .number s.pc.toNat) ∧
    transact (.getFlag .z) s = (s, .flag s.z) ∧
    transact (.getFlag .c) s = (s, .flag s.c) ∧
    transact .size s = (s, .number s.mem.size) ∧
    (∀ a : Int, (transact (.readByte a) s).1 = s) ∧
    (∀ a : Nat, a < s.mem.size → transact (.readByte a) s = (s, .byte (s.mem.cell a)))

/-- R109 and R175: a step that faults changes nothing, and any number of further steps raise the same fault from the
same state. -/
def Obligations.FaultChangesNothingAndRepeats : Prop :=
  ∀ (s : State) (f : Fault), step s = .fault f → ∀ n : Nat,
    transactAll (List.replicate n .step) s = s ∧
    transact .step (transactAll (List.replicate n .step) s) = (s, .fault f)

/-- R176: recovery is the host's: after any fault with PC inside memory, writing a `NOP` at PC lets the next step
complete. -/
def Obligations.HostRecoversFromFault : Prop :=
  ∀ (s : State) (f : Fault), step s = .fault f → s.has 0 →
    ∃ m : Memory, transactAll [.step, .writeByte s.pc.toNat 0xEA, .step] s = { s with mem := m, pc := s.pc + 1 } ∧
      (transact .step (transact (.writeByte s.pc.toNat 0xEA) s).1).2 = .ok ∧
      ∀ a : Nat, m.cell a = if a = s.pc.toNat then 0xEA else s.mem.cell a

/-- R195 of this machine (D11, log entry 7: a run has ended when PC is at the end address `E`). With PC not at `E`, a
`JMP` to itself and a taken branch with offset 0xFE never reach `E`, and a state whose step faults, at whichever check of
R177, has no result at `E`. A `NOP`, and a `JMP` elsewhere, reach the address they leave in PC, and after either the
machine does not stop there. Which steps fault rests on D4, D5 and D6 too (log entries 3, 4, 5). -/
def Obligations.EndOfRunIsThePositionOfPc : Prop :=
  (∀ (E : Word) (s t : State), s.pc ≠ E →
    (s.has 2 → s.byteAt 0 = 0x4C → s.wordAt = s.pc → ¬ HasResult E s t) ∧
    (s.has 1 → s.byteAt 0 = 0xD0 → s.byteAt 1 = 0xFE → s.z = false → ¬ HasResult E s t) ∧
    (s.has 1 → s.byteAt 0 = 0xF0 → s.byteAt 1 = 0xFE → s.z = true → ¬ HasResult E s t) ∧
    (∀ f : Fault, firstFault s = some f → ¬ HasResult E s t)) ∧
  (∀ s : State, s.has 2 → s.byteAt 0 = 0x4C → s.wordAt ≠ s.pc → ∃ t : State, t = { s with pc := s.wordAt } ∧
    HasResult s.wordAt s t ∧ DoesNotStop t) ∧
  (∀ s : State, s.has 0 → s.byteAt 0 = 0xEA → ∃ t : State, t = { s with pc := s.pc + 1 } ∧
    HasResult (s.pc + 1) s t ∧ DoesNotStop t)
end

