-- ==== Sys2Proof/Laws/Memory.lean ====
section
/-! SUPPORT. The laws of the memory operations: what a cell holds after a write, that every operation keeps the
canonical form, and what the two access primitives answer. -/

namespace Sys2Proof.Machine

/-! ### Lists of cells -/

theorem lookup_eraseCell (a b : Nat) (cells : List Host.Cell) :
    (eraseCell a cells).lookup b = if b = a then none else cells.lookup b := by
  induction cells with
  | nil => simp [eraseCell]
  | cons c cs ih =>
    obtain ⟨k, v⟩ := c
    simp only [eraseCell] at ih ⊢
    by_cases hk : k = a
    · subst hk
      rw [List.filter_cons_of_neg (by simp), ih]
      by_cases hb : b = k
      · simp [hb]
      · have : (b == k) = false := by simpa using hb
        simp [hb, List.lookup_cons, this]
    · rw [List.filter_cons_of_pos (by simpa using hk), List.lookup_cons, List.lookup_cons, ih]
      by_cases hb : b = k
      · subst hb; simp [hk]
      · have : (b == k) = false := by simpa using hb
        simp [this]

theorem lookup_insertCell (a b : Nat) (v : Byte) (cells : List Host.Cell) (ha : cells.lookup a = none) :
    (insertCell a v cells).lookup b = if b = a then some v else cells.lookup b := by
  induction cells with
  | nil =>
    by_cases hb : b = a
    · simp [insertCell, hb]
    · have : (b == a) = false := by simpa using hb
      simp [insertCell, List.lookup_cons, hb, this]
  | cons c cs ih =>
    obtain ⟨k, u⟩ := c
    rw [List.lookup_cons] at ha
    have hka : ¬ a = k := by
      intro h
      subst h
      simp at ha
    have hk : (a == k) = false := by simpa using hka
    rw [hk] at ha
    by_cases hlt : a < k
    · by_cases hb : b = a
      · simp [insertCell, hlt, hb]
      · have : (b == a) = false := by simpa using hb
        simp [insertCell, hlt, List.lookup_cons, hb, this]
    · simp only [insertCell, hlt, if_false, List.lookup_cons]
      rw [ih ha]
      by_cases hb : b = k
      · subst hb
        simp [Ne.symm hka]
      · have : (b == k) = false := by simpa using hb
        simp [this]

theorem mem_insertCell (c : Host.Cell) (a : Nat) (v : Byte) (cells : List Host.Cell) :
    c ∈ insertCell a v cells ↔ c = (a, v) ∨ c ∈ cells := by
  induction cells with
  | nil => simp [insertCell]
  | cons d ds ih =>
    by_cases h : a < d.1
    · simp [insertCell, h]
    · simp only [insertCell, h, if_false, List.mem_cons, ih]
      tauto

theorem pairwise_insertCell (a : Nat) (v : Byte) (cells : List Host.Cell)
    (h : cells.Pairwise fun c d => c.1 < d.1) (ha : ∀ c ∈ cells, c.1 ≠ a) :
    (insertCell a v cells).Pairwise fun c d => c.1 < d.1 := by
  induction cells with
  | nil => simp [insertCell]
  | cons d ds ih =>
    rw [List.pairwise_cons] at h
    by_cases hlt : a < d.1
    · simp only [insertCell, hlt, if_true, List.pairwise_cons]
      refine ⟨?_, h.1, h.2⟩
      intro c hc
      rcases List.mem_cons.mp hc with rfl | hc
      · exact hlt
      · exact Nat.lt_trans hlt (h.1 c hc)
    · simp only [insertCell, hlt, if_false, List.pairwise_cons]
      refine ⟨?_, ih h.2 fun c hc => ha c (List.mem_cons_of_mem d hc)⟩
      intro c hc
      rcases (mem_insertCell c a v ds).mp hc with rfl | hc
      · have := ha d List.mem_cons_self
        simp only
        omega
      · exact h.1 c hc

/-! ### One cell -/

@[simp] theorem Memory.setCell_size (m : Memory) (a : Nat) (v : Byte) : (m.setCell a v).size = m.size := rfl

/-- Read after write: the cell written holds the value, every other cell what it held (R52, R60). -/
theorem Memory.cell_setCell (m : Memory) (a b : Nat) (v : Byte) :
    (m.setCell a v).cell b = if b = a then v else m.cell b := by
  have he := lookup_eraseCell a b m.cells
  have hn : (eraseCell a m.cells).lookup a = none := by simp [lookup_eraseCell]
  simp only [Memory.cell, Memory.setCell]
  by_cases hv : v = Memory.unlisted
  · simp only [hv, if_true, he]
    by_cases hb : b = a <;> simp [hb]
  · simp only [hv, if_false, lookup_insertCell a b v _ hn, he]
    by_cases hb : b = a <;> simp [hb]

/-- A write to a cell that exists keeps the canonical form. -/
theorem Memory.setCell_wf {m : Memory} {a : Nat} {v : Byte} (h : m.wf) (ha : a < m.size) : (m.setCell a v).wf := by
  have hpe : (eraseCell a m.cells).Pairwise fun c d => c.1 < d.1 := h.1.filter _
  have hme : ∀ c ∈ eraseCell a m.cells, c ∈ m.cells ∧ c.1 ≠ a := by
    intro c hc
    simpa [eraseCell] using hc
  by_cases hv : v = Memory.unlisted
  · simp only [Memory.wf, Memory.setCell, hv, if_true]
    exact ⟨hpe, fun c hc => h.2 c (hme c hc).1⟩
  · simp only [Memory.wf, Memory.setCell, hv, if_false]
    refine ⟨pairwise_insertCell a v _ hpe fun c hc => (hme c hc).2, ?_⟩
    intro c hc
    rcases (mem_insertCell c a v _).mp hc with rfl | hc
    · exact ⟨hv, ha⟩
    · exact h.2 c (hme c hc).1

/-- Memory with nothing listed is in canonical form, at any length. -/
theorem Memory.empty_wf (size : Nat) : Memory.wf ⟨size, []⟩ := by simp [Memory.wf]

/-- Nothing is listed after reset, so every cell holds `Memory.unlisted` (R40). -/
@[simp] theorem Memory.empty_cell (size a : Nat) : Memory.cell ⟨size, []⟩ a = Memory.unlisted := rfl

/-! ### The access primitives -/

theorem Memory.inRange_iff (m : Memory) (addr : Int) :
    m.inRange addr = true ↔ 0 ≤ addr ∧ addr < (m.size : Int) := by simp [Memory.inRange]

/-- Everything a read can do (R51). -/
theorem memRead_cases (m : Memory) (addr : Int) :
    (0 ≤ addr ∧ addr < (m.size : Int) ∧ memRead m addr = .ok (m.cell addr.toNat)) ∨
    ((addr < 0 ∨ (m.size : Int) ≤ addr) ∧ memRead m addr = .error (.outOfRange addr)) := by
  by_cases h : m.inRange addr = true
  · have := (Memory.inRange_iff m addr).mp h
    exact .inl ⟨this.1, this.2, by simp [memRead, h]⟩
  · have h' := (not_congr (Memory.inRange_iff m addr)).mp h
    exact .inr ⟨by omega, by simp [memRead, h]⟩

/-- Everything a write can do (R52). -/
theorem memWrite_cases (m : Memory) (addr : Int) (v : Byte) :
    (0 ≤ addr ∧ addr < (m.size : Int) ∧ memWrite m addr v = .ok (m.setCell addr.toNat v)) ∨
    ((addr < 0 ∨ (m.size : Int) ≤ addr) ∧ memWrite m addr v = .error (.outOfRange addr)) := by
  by_cases h : m.inRange addr = true
  · have := (Memory.inRange_iff m addr).mp h
    exact .inl ⟨this.1, this.2, by simp [memWrite, h]⟩
  · have h' := (not_congr (Memory.inRange_iff m addr)).mp h
    exact .inr ⟨by omega, by simp [memWrite, h]⟩

/-- If a write succeeds: the address exists, the length is kept, the one cell changes, the canonical form is kept. -/
theorem memWrite_ok {m m' : Memory} {addr : Int} {v : Byte} (h : memWrite m addr v = .ok m') :
    0 ≤ addr ∧ addr < (m.size : Int) ∧ m'.size = m.size ∧
      (∀ b : Nat, m'.cell b = if (b : Int) = addr then v else m.cell b) ∧ (m.wf → m'.wf) := by
  rcases memWrite_cases m addr v with ⟨h0, h1, he⟩ | ⟨_, he⟩
  · rw [he] at h
    cases h
    refine ⟨h0, h1, rfl, ?_, fun hw => Memory.setCell_wf hw (by omega)⟩
    intro b
    rw [Memory.cell_setCell]
    have : b = addr.toNat ↔ (b : Int) = addr := by omega
    simp only [this]
  · rw [he] at h
    cases h

theorem Memory.place_size (m : Memory) (a : Nat) (bytes : List Byte) : (m.place a bytes).size = m.size := by
  induction bytes generalizing m a with
  | nil => rfl
  | cons b bs ih =>
    rw [Memory.place, ih]
    split <;> simp

/-- Placing bytes keeps the canonical form. -/
theorem Memory.place_wf {m : Memory} (a : Nat) (bytes : List Byte) (h : m.wf) : (m.place a bytes).wf := by
  induction bytes generalizing m a with
  | nil => exact h
  | cons b bs ih =>
    rw [Memory.place]
    split
    · exact ih _ (Memory.setCell_wf h ‹_›)
    · exact ih _ h

/-- What a cell holds after bytes are placed: the byte for it, if its cell exists, else what it held. -/
theorem Memory.cell_place (m : Memory) (a b : Nat) (bytes : List Byte) :
    (m.place a bytes).cell b =
      if a ≤ b ∧ b < a + bytes.length ∧ b < m.size then bytes.getD (b - a) 0 else m.cell b := by
  induction bytes generalizing m a with
  | nil => simp [Memory.place]; omega
  | cons v vs ih =>
    rw [Memory.place, ih]
    by_cases hb : b = a
    · subst hb
      by_cases hs : b < m.size
      · simp [hs, Memory.cell_setCell]
      · simp [hs]
    · have hd : ∀ h : a + 1 ≤ b, (v :: vs).getD (b - a) 0 = vs.getD (b - (a + 1)) 0 := by
        intro h
        have : b - a = (b - (a + 1)) + 1 := by omega
        rw [this]
        rfl
      by_cases hs : a < m.size
      · simp only [hs, if_true, Memory.setCell_size, Memory.cell_setCell, hb, if_false, List.length_cons]
        by_cases hr : a + 1 ≤ b ∧ b < a + 1 + vs.length ∧ b < m.size
        · rw [if_pos hr, if_pos (by omega), hd hr.1]
        · rw [if_neg hr, if_neg (by omega)]
      · simp only [hs, if_false, List.length_cons]
        rw [if_neg (by omega), if_neg (by omega)]

end Sys2Proof.Machine
end

