-- ==== Sys2Proof/Laws/State.lean ====
section
/-! SUPPORT. The fields of State after each update of Ops.lean and Flags.lean, true by rfl, so that no later proof
unfolds a record update. -/

namespace Sys2Proof.Machine

variable (s : State) (v : Byte) (w : Int) (n : Nat) (p q : Bool)

/-! ### Reading a register by name -/

@[simp] theorem State.reg_a : s.reg .a = s.a := rfl
@[simp] theorem State.reg_x : s.reg .x = s.x := rfl
@[simp] theorem State.reg_y : s.reg .y = s.y := rfl
@[simp] theorem State.reg_sp : s.reg .sp = s.sp := rfl

/-! ### Writing a register -/

@[simp] theorem State.setReg_a_a : (s.setReg .a v).a = v := rfl
@[simp] theorem State.setReg_a_x : (s.setReg .a v).x = s.x := rfl
@[simp] theorem State.setReg_a_y : (s.setReg .a v).y = s.y := rfl
@[simp] theorem State.setReg_a_sp : (s.setReg .a v).sp = s.sp := rfl
@[simp] theorem State.setReg_a_pc : (s.setReg .a v).pc = s.pc := rfl
@[simp] theorem State.setReg_a_z : (s.setReg .a v).z = s.z := rfl
@[simp] theorem State.setReg_a_c : (s.setReg .a v).c = s.c := rfl
@[simp] theorem State.setReg_a_mem : (s.setReg .a v).mem = s.mem := rfl

@[simp] theorem State.setReg_x_a : (s.setReg .x v).a = s.a := rfl
@[simp] theorem State.setReg_x_x : (s.setReg .x v).x = v := rfl
@[simp] theorem State.setReg_x_y : (s.setReg .x v).y = s.y := rfl
@[simp] theorem State.setReg_x_sp : (s.setReg .x v).sp = s.sp := rfl
@[simp] theorem State.setReg_x_pc : (s.setReg .x v).pc = s.pc := rfl
@[simp] theorem State.setReg_x_z : (s.setReg .x v).z = s.z := rfl
@[simp] theorem State.setReg_x_c : (s.setReg .x v).c = s.c := rfl
@[simp] theorem State.setReg_x_mem : (s.setReg .x v).mem = s.mem := rfl

@[simp] theorem State.setReg_y_a : (s.setReg .y v).a = s.a := rfl
@[simp] theorem State.setReg_y_x : (s.setReg .y v).x = s.x := rfl
@[simp] theorem State.setReg_y_y : (s.setReg .y v).y = v := rfl
@[simp] theorem State.setReg_y_sp : (s.setReg .y v).sp = s.sp := rfl
@[simp] theorem State.setReg_y_pc : (s.setReg .y v).pc = s.pc := rfl
@[simp] theorem State.setReg_y_z : (s.setReg .y v).z = s.z := rfl
@[simp] theorem State.setReg_y_c : (s.setReg .y v).c = s.c := rfl
@[simp] theorem State.setReg_y_mem : (s.setReg .y v).mem = s.mem := rfl

@[simp] theorem State.setReg_sp_a : (s.setReg .sp v).a = s.a := rfl
@[simp] theorem State.setReg_sp_x : (s.setReg .sp v).x = s.x := rfl
@[simp] theorem State.setReg_sp_y : (s.setReg .sp v).y = s.y := rfl
@[simp] theorem State.setReg_sp_sp : (s.setReg .sp v).sp = v := rfl
@[simp] theorem State.setReg_sp_pc : (s.setReg .sp v).pc = s.pc := rfl
@[simp] theorem State.setReg_sp_z : (s.setReg .sp v).z = s.z := rfl
@[simp] theorem State.setReg_sp_c : (s.setReg .sp v).c = s.c := rfl
@[simp] theorem State.setReg_sp_mem : (s.setReg .sp v).mem = s.mem := rfl

/-- A register reads as written, every other as before (R33). -/
theorem State.reg_setReg (r r' : Reg8) : (s.setReg r v).reg r' = if r' = r then v else s.reg r' := by
  cases r <;> cases r' <;> rfl

@[simp] theorem State.setReg_pc (r : Reg8) : (s.setReg r v).pc = s.pc := by cases r <;> rfl
@[simp] theorem State.setReg_z (r : Reg8) : (s.setReg r v).z = s.z := by cases r <;> rfl
@[simp] theorem State.setReg_c (r : Reg8) : (s.setReg r v).c = s.c := by cases r <;> rfl
@[simp] theorem State.setReg_mem (r : Reg8) : (s.setReg r v).mem = s.mem := by cases r <;> rfl

/-! ### Writing PC -/

@[simp] theorem State.setPc_a : (s.setPc w).a = s.a := rfl
@[simp] theorem State.setPc_x : (s.setPc w).x = s.x := rfl
@[simp] theorem State.setPc_y : (s.setPc w).y = s.y := rfl
@[simp] theorem State.setPc_sp : (s.setPc w).sp = s.sp := rfl
@[simp] theorem State.setPc_pc : (s.setPc w).pc = toReg16 w := rfl
@[simp] theorem State.setPc_z : (s.setPc w).z = s.z := rfl
@[simp] theorem State.setPc_c : (s.setPc w).c = s.c := rfl
@[simp] theorem State.setPc_mem : (s.setPc w).mem = s.mem := rfl

@[simp] theorem State.advance_a : (s.advance n).a = s.a := rfl
@[simp] theorem State.advance_x : (s.advance n).x = s.x := rfl
@[simp] theorem State.advance_y : (s.advance n).y = s.y := rfl
@[simp] theorem State.advance_sp : (s.advance n).sp = s.sp := rfl
@[simp] theorem State.advance_z : (s.advance n).z = s.z := rfl
@[simp] theorem State.advance_c : (s.advance n).c = s.c := rfl
@[simp] theorem State.advance_mem : (s.advance n).mem = s.mem := rfl

/-- The sequential advance is 16-bit addition (R27: the sum modulo 65536). -/
@[simp] theorem State.advance_pc : (s.advance n).pc = s.pc + BitVec.ofNat 16 n := by
  apply BitVec.eq_of_toNat_eq
  simp only [State.advance, State.setPc, toReg16, BitVec.toNat_ofInt, BitVec.toNat_add, BitVec.toNat_ofNat]
  omega

/-! ### Writing the flags -/

@[simp] theorem State.setFlags_a : (s.setFlags p q).a = s.a := rfl
@[simp] theorem State.setFlags_x : (s.setFlags p q).x = s.x := rfl
@[simp] theorem State.setFlags_y : (s.setFlags p q).y = s.y := rfl
@[simp] theorem State.setFlags_sp : (s.setFlags p q).sp = s.sp := rfl
@[simp] theorem State.setFlags_pc : (s.setFlags p q).pc = s.pc := rfl
@[simp] theorem State.setFlags_z : (s.setFlags p q).z = p := rfl
@[simp] theorem State.setFlags_c : (s.setFlags p q).c = q := rfl
@[simp] theorem State.setFlags_mem : (s.setFlags p q).mem = s.mem := rfl

/-! ### Reset -/

variable (size : Nat)

@[simp] theorem State.resetWith_a : (State.resetWith size p q).a = 0x00 := rfl
@[simp] theorem State.resetWith_x : (State.resetWith size p q).x = 0x00 := rfl
@[simp] theorem State.resetWith_y : (State.resetWith size p q).y = 0x00 := rfl
@[simp] theorem State.resetWith_sp : (State.resetWith size p q).sp = 0xFF := rfl
@[simp] theorem State.resetWith_pc : (State.resetWith size p q).pc = 0x0000 := rfl
@[simp] theorem State.resetWith_z : (State.resetWith size p q).z = p := rfl
@[simp] theorem State.resetWith_c : (State.resetWith size p q).c = q := rfl
@[simp] theorem State.resetWith_mem : (State.resetWith size p q).mem = ⟨size, []⟩ := rfl

end Sys2Proof.Machine
end

