-- ==== Sys2Proof/Laws/Operations.lean ====
section
/-! SUPPORT. One lemma per shared operation that says everything it can do, for the provers to cite instead of
unfolding it. -/

namespace Sys2Proof.Machine

/-! ### The two 8-bit and 16-bit conversions -/

theorem s8_eq_toInt (b : Byte) : s8 b = b.toInt := by
  have := b.isLt
  simp only [s8, BitVec.toInt_eq_toNat_cond]
  split <;> split <;> omega

/-- The operand's two bytes, the second above the first (R87). -/
theorem wordOfBytes_eq_append (lo hi : Byte) : wordOfBytes lo hi = hi ++ lo := by
  apply BitVec.eq_of_getLsbD_eq
  intro k hk
  change (wordOfBytes lo hi).getLsbD k = (hi ++ lo : BitVec (8 + 8)).getLsbD k
  rw [BitVec.getLsbD_append]
  by_cases h : k < 8
  · simp [wordOfBytes, h, hk]
  · simp [wordOfBytes, h, hk, BitVec.getLsbD_of_ge lo k (by omega)]

theorem wordOfBytes_loByte_hiByte (w : Word) : wordOfBytes (loByte w) (hiByte w) = w := by
  rw [wordOfBytes_eq_append]
  apply BitVec.eq_of_getLsbD_eq
  intro k hk
  change (hiByte w ++ loByte w : BitVec (8 + 8)).getLsbD k = w.getLsbD k
  rw [BitVec.getLsbD_append]
  by_cases h : k < 8
  · simp [loByte, h]
  · simp [hiByte, h, show k - 8 < 8 by omega, show 8 + (k - 8) = k by omega]

/-- The taken branch as 16-bit arithmetic (R106). -/
theorem toReg16_branchTarget (pc : Word) (offset : Byte) :
    toReg16 (branchTarget pc offset) = pc + 2 + offset.signExtend 16 := by
  apply BitVec.eq_of_toInt_eq
  have h1 := pc.isLt
  have h2 : (offset.signExtend 16).toInt = offset.toInt := BitVec.toInt_signExtend_of_le (by omega)
  simp only [toReg16, branchTarget, s8_eq_toInt, BitVec.toInt_ofInt, BitVec.toInt_add, h2]
  rw [BitVec.toInt_eq_toNat_bmod pc, show ((2 : Word).toInt : Int) = 2 from rfl]
  simp

/-! ### The opcode map -/

/-- Every row of the opcode map (R89). -/
theorem opcodeMap_cases {b0 : Byte} {e : OpcodeEntry} (h : opcodeMap b0 = some e) :
    (b0 = 0xA9 ∧ e = .imm .lda) ∨ (b0 = 0xA2 ∧ e = .imm .ldx) ∨ (b0 = 0xA0 ∧ e = .imm .ldy) ∨
    (b0 = 0x8D ∧ e = .abs .sta) ∨ (b0 = 0x8E ∧ e = .abs .stx) ∨ (b0 = 0x8C ∧ e = .abs .sty) ∨
    (b0 = 0xAA ∧ e = .imp .tax) ∨ (b0 = 0xA8 ∧ e = .imp .tay) ∨ (b0 = 0x8A ∧ e = .imp .txa) ∨
    (b0 = 0x98 ∧ e = .imp .tya) ∨ (b0 = 0x69 ∧ e = .imm .add) ∨ (b0 = 0x4C ∧ e = .abs .jmp) ∨
    (b0 = 0xEA ∧ e = .imp .nop) ∨ (b0 = 0xD0 ∧ e = .rel .bne) ∨ (b0 = 0xF0 ∧ e = .rel .beq) := by
  have key : ∀ (rows : List (Byte × OpcodeEntry)), rows.lookup b0 = some e → (b0, e) ∈ rows := by
    intro rows
    induction rows with
    | nil => simp
    | cons r rs ih =>
      obtain ⟨k, f⟩ := r
      rw [List.lookup_cons]
      by_cases hb : b0 = k
      · subst hb
        simp
        intro h
        exact .inl h.symm
      · have : (b0 == k) = false := by simpa using hb
        simp only [this, List.mem_cons]
        exact fun h => .inr (ih h)
  simpa [opcodeTable] using key opcodeTable h

/-! ### Fetching -/

theorem State.has_iff (s : State) (k : Nat) : s.has k = true ↔ s.pc.toNat + k < s.mem.size := by simp [State.has]

/-- Memory that holds byte `k` of the instruction at PC holds the bytes before it. -/
theorem State.has_of_le {s : State} {j k : Nat} (h : s.has k = true) (hj : j ≤ k) : s.has j = true := by
  rw [State.has_iff] at *
  omega

/-- Everything a fetch of byte `k` can do (R51, R101, R103). -/
theorem fetchByte_cases (s : State) (k : Nat) :
    (s.has k = true ∧ fetchByte s k = .ok (s.byteAt k)) ∨
    (s.has k = false ∧ fetchByte s k = .error (.outOfRange ((s.pc.toNat : Int) + k))) := by
  rcases memRead_cases s.mem ((s.pc.toNat : Int) + k) with ⟨_, h, he⟩ | ⟨h, he⟩
  · exact .inl ⟨by rw [State.has_iff]; omega, he⟩
  · exact .inr ⟨by rw [← Bool.not_eq_true, State.has_iff]; omega, he⟩

@[simp] theorem fetchByte_ok {s : State} {k : Nat} (h : s.has k = true) : fetchByte s k = .ok (s.byteAt k) := by
  rcases fetchByte_cases s k with ⟨_, he⟩ | ⟨hn, _⟩
  · exact he
  · simp [h] at hn

@[simp] theorem fetchByte_error {s : State} {k : Nat} (h : s.has k = false) :
    fetchByte s k = .error (.outOfRange ((s.pc.toNat : Int) + k)) := by
  rcases fetchByte_cases s k with ⟨hy, _⟩ | ⟨_, he⟩
  · simp [h] at hy
  · exact he

/-! ### Runs -/

/-- A run that has faulted stays faulted however many steps are added. -/
theorem run_fault_of_le {n m : Nat} {s : State} {f : Fault} (h : run n s = .fault f) (hm : n ≤ m) :
    run m s = .fault f := by
  induction n generalizing s m with
  | zero => cases h
  | succ n ih =>
    obtain ⟨k, rfl⟩ : ∃ k, m = k + 1 := ⟨m - 1, by omega⟩
    simp only [run] at h ⊢
    cases hs : step s with
    | next u =>
      rw [hs] at h
      exact ih h (by omega)
    | fault g =>
      rw [hs] at h
      exact h
    | refused r =>
      rw [hs] at h
      cases h

/-- The result of running to an end address is unique: the definition of R195 names one state. -/
theorem hasResult_unique {E : Word} {s t u : State} (ht : HasResult E s t) (hu : HasResult E s u) : t = u := by
  obtain ⟨n, hn, hnE, hnf⟩ := ht
  obtain ⟨m, hm, hmE, hmf⟩ := hu
  rcases Nat.lt_trichotomy n m with h | h | h
  · exact absurd hnE (hmf n h t hn)
  · subst h
    rw [hn] at hm
    cases hm
    rfl
  · exact absurd hmE (hnf m h u hm)

/-! ### The shared meanings -/

/-- Everything an immediate load does (R120 to R122): it always completes, and only its register and PC change. -/
theorem loadImmediate_next (r : Reg8) (value : Byte) (s : State) :
    loadImmediate r value s = .next { s.setReg r value with pc := s.pc + 2 } := by
  have h := State.advance_pc (s.setReg r value) 2
  cases r <;> simp only [loadImmediate, Host.Outcome.next.injEq] <;>
    exact congrArg (fun pc => { s.setReg _ value with pc := pc }) h

/-- Everything a transfer does (R140 to R143). -/
theorem transfer_next (src dst : Reg8) (s : State) :
    transfer src dst s = .next { s.setReg dst (s.reg src) with pc := s.pc + 1 } := by
  have h := State.advance_pc (s.setReg dst (s.reg src)) 1
  cases dst <;> simp only [transfer, Host.Outcome.next.injEq] <;>
    exact congrArg (fun pc => { s.setReg _ (s.reg src) with pc := pc }) h

/-- Everything a store can do (R130 to R132): it writes its one cell and PC, or faults with its target. -/
theorem storeAbsolute_cases (r : Reg8) (addr : Word) (s : State) :
    (addr.toNat < s.mem.size ∧
      storeAbsolute r addr s = .next { s with mem := s.mem.setCell addr.toNat (s.reg r), pc := s.pc + 3 }) ∨
    (s.mem.size ≤ addr.toNat ∧ storeAbsolute r addr s = .fault (.outOfRange addr.toNat)) := by
  rcases memWrite_cases s.mem (addr.toNat : Int) (s.reg r) with ⟨_, h, he⟩ | ⟨h, he⟩
  · refine .inl ⟨by omega, ?_⟩
    have hp := State.advance_pc { s with mem := s.mem.setCell addr.toNat (s.reg r) } 3
    simp only [storeAbsolute, he, Int.toNat_natCast, Host.Outcome.next.injEq]
    exact congrArg (fun pc => { s with mem := s.mem.setCell addr.toNat (s.reg r), pc := pc }) hp
  · exact .inr ⟨by omega, by simp [storeAbsolute, he, raise]⟩

/-- Everything a branch does (R162, R163): it always completes, and only PC changes. -/
theorem branchIf_next (taken : Bool) (offset : Byte) (s : State) :
    branchIf taken offset s =
      .next { s with pc := if taken then s.pc + 2 + offset.signExtend 16 else s.pc + 2 } := by
  cases taken
  · exact congrArg (fun pc => Host.Outcome.next { s with pc := pc }) (State.advance_pc s 2)
  · exact congrArg (fun pc => Host.Outcome.next { s with pc := pc }) (toReg16_branchTarget s.pc offset)

end Sys2Proof.Machine
end

