-- ==== Sys2Proof/Laws/PerInstr.lean ====
section
/-! SUPPORT. Facts made per instruction: the encoding of an instruction has the length the opcode map gives its first
byte (spec/30_encoding.md R80, R91). -/

namespace Sys2Proof.Laws.EncodedLength

/-- The encoding begins with an implemented opcode byte, and is as long as that byte says. -/
def Statement (i : Instr) : Prop :=
  ∃ (b0 : Byte) (operands : List Byte), encode i = b0 :: operands ∧ instrLength b0 = some (operands.length + 1)

theorem lda (value : Byte) : Statement (.lda value) := ⟨_, _, rfl, rfl⟩
theorem ldx (value : Byte) : Statement (.ldx value) := ⟨_, _, rfl, rfl⟩
theorem ldy (value : Byte) : Statement (.ldy value) := ⟨_, _, rfl, rfl⟩
theorem sta (addr : Word) : Statement (.sta addr) := ⟨_, _, rfl, rfl⟩
theorem stx (addr : Word) : Statement (.stx addr) := ⟨_, _, rfl, rfl⟩
theorem sty (addr : Word) : Statement (.sty addr) := ⟨_, _, rfl, rfl⟩
theorem tax : Statement .tax := ⟨_, _, rfl, rfl⟩
theorem tay : Statement .tay := ⟨_, _, rfl, rfl⟩
theorem txa : Statement .txa := ⟨_, _, rfl, rfl⟩
theorem tya : Statement .tya := ⟨_, _, rfl, rfl⟩
theorem add (value : Byte) : Statement (.add value) := ⟨_, _, rfl, rfl⟩
theorem jmp (addr : Word) : Statement (.jmp addr) := ⟨_, _, rfl, rfl⟩
theorem nop : Statement .nop := ⟨_, _, rfl, rfl⟩
theorem bne (offset : Byte) : Statement (.bne offset) := ⟨_, _, rfl, rfl⟩
theorem beq (offset : Byte) : Statement (.beq offset) := ⟨_, _, rfl, rfl⟩

end Sys2Proof.Laws.EncodedLength
end

