-- ==== Sys2Proof/Tests/Slice0.lean ====
section
/-! SUPPORT. Tests: the expected values are the vectors of spec/95_test_vectors.md (the id stands at each) or are worked
out from the rule named; then, for every statement with hypotheses, a named state that meets them. -/

namespace Sys2Proof.Tests

open Sys2Proof.Machine Sys2Proof.Stmt

/-- The reset state with a memory length and a PC, and bytes placed at PC. -/
def boot (size : Nat) (pc : Word) (bytes : List Byte) : State :=
  { State.resetWith size false false with pc := pc }.placeAtPc bytes

/-- The registers and flags, in the vectors' order `A X Y SP PC Z C`. -/
structure View where
  a : Byte
  x : Byte
  y : Byte
  sp : Byte
  pc : Word
  z : Bool
  c : Bool
deriving DecidableEq, Repr

/-- The registers and flags after one step, if it completes. -/
def stepView (s : State) : Option View := (nextOf (step s)).map fun t => ⟨t.a, t.x, t.y, t.sp, t.pc, t.z, t.c⟩

/-- A cell after one step, if it completes. -/
def stepCell (s : State) (a : Nat) : Option Byte := (nextOf (step s)).map fun t => t.mem.cell a

/-! ### Well-formedness (R90, R92) -/

theorem test_no_operand_value_is_illegal (b : Byte) (w : Word) :
    [Instr.lda b, .ldx b, .ldy b, .sta w, .stx w, .sty w, .tax, .tay, .txa, .tya, .add b, .jmp w, .nop, .bne b,
      .beq b].all Instr.wf = true := rfl

theorem test_immediate_256_refused : asmImmediate 256 = none ∧ asmImmediate (-1) = none := by decide
theorem test_immediate_255_accepted : asmImmediate 255 = some 0xFF := by decide
theorem test_address_0x10000_refused : asmAddress 0x10000 = none ∧ asmAddress (-1) = none := by decide
theorem test_address_0x0200_accepted : asmAddress 0x0200 = some 0x0200 := by decide
/-- R166: the reach is `pc - 126` to `pc + 129`. -/
theorem test_branch_out_of_reach_refused : asmOffset 0x0100 0x0182 = none ∧ asmOffset 0x0100 0x0081 = none := by decide
/-- P1: the BNE at 0x0007 to 0x0002 is encoded `D0 F9`. -/
theorem test_branch_in_reach_accepted : asmOffset 0x0007 0x0002 = some 0xF9 := by decide

/-! ### Decoding, from the opcode map of R89 written out bit by bit -/

theorem test_decode_LDA : decodeTableWord 16 0b01000010_10101001 = some (.lda 0x42) := by decide
theorem test_decode_LDX : decodeTableWord 16 0b01111111_10100010 = some (.ldx 0x7F) := by decide
theorem test_decode_LDY : decodeTableWord 16 0b11111111_10100000 = some (.ldy 0xFF) := by decide
theorem test_decode_STA : decodeTableWord 24 0b00000010_00000000_10001101 = some (.sta 0x0200) := by decide
theorem test_decode_STX : decodeTableWord 24 0b00010010_00110100_10001110 = some (.stx 0x1234) := by decide
theorem test_decode_STY : decodeTableWord 24 0b00000011_00000000_10001100 = some (.sty 0x0300) := by decide
theorem test_decode_TAX : decodeTableWord 8 0b10101010 = some .tax := by decide
theorem test_decode_TAY : decodeTableWord 8 0b10101000 = some .tay := by decide
theorem test_decode_TXA : decodeTableWord 8 0b10001010 = some .txa := by decide
theorem test_decode_TYA : decodeTableWord 8 0b10011000 = some .tya := by decide
theorem test_decode_ADD : decodeTableWord 16 0b00000010_01101001 = some (.add 0x02) := by decide
theorem test_decode_JMP : decodeTableWord 24 0b00010010_00110100_01001100 = some (.jmp 0x1234) := by decide
theorem test_decode_NOP : decodeTableWord 8 0b11101010 = some .nop := by decide
theorem test_decode_BNE : decodeTableWord 16 0b11111010_11010000 = some (.bne 0xFA) := by decide
theorem test_decode_BEQ : decodeTableWord 16 0b00001010_11110000 = some (.beq 0x0A) := by decide
/-- R90's ends of ranges around 0x4C, 0x69, 0x8A and 0xEA; F2's 0x6D. -/
theorem test_decode_unimplemented :
    [0x00, 0x4B, 0x4D, 0x68, 0x6A, 0x6D, 0x89, 0x8B, 0xE9, 0xEB, 0xFF].all
      (fun b => (decodeTableWord 24 b).isNone) = true := by decide

/-! ### One step, from spec/95_test_vectors.md -/

/-- L1: loading zero does not set Z, C is kept. -/
theorem test_LDA_L1 : stepView { boot 65536 0 [0xA9, 0x00] with a := 0x55, c := true } =
    some ⟨0x00, 0x00, 0x00, 0xFF, 0x0002, false, true⟩ := by decide
/-- L5: the operand address is not wrapped. -/
theorem test_LDA_L5 : faultOf (step (boot 65536 0xFFFF [0xA9, 0x11])) = some (.outOfRange 0x10000) := by decide
/-- L3. -/
theorem test_LDX_L3 : stepView { boot 65536 0x1234 [0xA2, 0x80] with a := 0x01, y := 0x02 } =
    some ⟨0x01, 0x80, 0x02, 0xFF, 0x1236, false, false⟩ := by decide
/-- L6: a small memory. -/
theorem test_LDX_L6 : faultOf (step (boot 0x100 0x00FF [0xA2, 0x11])) = some (.outOfRange 0x100) := by decide
/-- L4: PC wraps. -/
theorem test_LDY_L4 : stepView (boot 65536 0xFFFE [0xA0, 0x7F]) =
    some ⟨0x00, 0x00, 0x7F, 0xFF, 0x0000, false, false⟩ := by decide
/-- S2: the operand is little-endian. -/
theorem test_STA_S2 : stepView { boot 65536 0 [0x8D, 0x00, 0x02] with a := 0x99 } =
      some ⟨0x99, 0x00, 0x00, 0xFF, 0x0003, false, false⟩ ∧
    stepCell { boot 65536 0 [0x8D, 0x00, 0x02] with a := 0x99 } 0x0200 = some 0x99 := by decide
/-- ST5: the target lies beyond a small memory. -/
theorem test_STA_ST5 : faultOf (step { boot 0x100 0 [0x8D, 0x00, 0x02] with a := 0x01 }) =
    some (.outOfRange 0x200) := by decide
/-- ST2: the highest address. -/
theorem test_STX_ST2 : stepCell { boot 65536 0 [0x8E, 0xFF, 0xFF] with x := 0x5A } 0xFFFF = some 0x5A := by decide
/-- ST8. -/
theorem test_STX_ST8 : faultOf (step { boot 65536 0xFFFF [0x8E] with x := 0x42 }) = some (.outOfRange 0x10000) := by
  decide
/-- ST3: the lowest address. -/
theorem test_STY_ST3 : stepCell { boot 65536 0x0010 [0x8C, 0x00, 0x00] with y := 0x77 } 0x0000 = some 0x77 := by decide
/-- ST9: the next opcode is overwritten with a `NOP`. -/
theorem test_STY_ST9 : stepCell { boot 65536 0 [0x8C, 0x03, 0x00] with y := 0xEA } 0x0003 = some 0xEA := by decide
/-- T1. -/
theorem test_TAX_T1 : stepView { boot 65536 0 [0xAA] with a := 0x12, x := 0x34, y := 0x56, z := true, c := true } =
    some ⟨0x12, 0x12, 0x56, 0xFF, 0x0001, true, true⟩ := by decide
/-- T5: PC wraps in the last cell. -/
theorem test_TAX_T5 : stepView { boot 65536 0xFFFF [0xAA] with a := 0x9C } =
    some ⟨0x9C, 0x9C, 0x00, 0xFF, 0x0000, false, false⟩ := by decide
/-- T2. -/
theorem test_TAY_T2 : stepView { boot 65536 0 [0xA8] with a := 0x12, x := 0x34, y := 0x56 } =
    some ⟨0x12, 0x34, 0x12, 0xFF, 0x0001, false, false⟩ := by decide
/-- T3: A becomes zero, Z stays false. -/
theorem test_TXA_T3 : stepView { boot 65536 0 [0x8A] with a := 0x12, x := 0x00, y := 0x56 } =
    some ⟨0x00, 0x00, 0x56, 0xFF, 0x0001, false, false⟩ := by decide
/-- T4. -/
theorem test_TYA_T4 : stepView { boot 65536 0 [0x98] with a := 0x12, x := 0x34, y := 0x56 } =
    some ⟨0x56, 0x34, 0x56, 0xFF, 0x0001, false, false⟩ := by decide
/-- A2: the incoming carry is not added. -/
theorem test_ADD_A2 : stepView { boot 65536 0 [0x69, 0x01] with z := true, c := true } =
    some ⟨0x01, 0x00, 0x00, 0xFF, 0x0002, false, false⟩ := by decide
/-- A3: Z and C both set. -/
theorem test_ADD_A3 : stepView { boot 65536 0 [0x69, 0xFF] with a := 0x01 } =
    some ⟨0x00, 0x00, 0x00, 0xFF, 0x0002, true, true⟩ := by decide
/-- J1. -/
theorem test_JMP_J1 : stepView (boot 65536 0 [0x4C, 0x34, 0x12]) =
    some ⟨0x00, 0x00, 0x00, 0xFF, 0x1234, false, false⟩ := by decide
/-- J5: the high byte lies beyond the top. -/
theorem test_JMP_J5 : faultOf (step (boot 65536 0xFFFE [0x4C, 0x00])) = some (.outOfRange 0x10000) := by decide
/-- N1. -/
theorem test_NOP_N1 : stepView { boot 65536 0 [0xEA] with a := 0x01, x := 0x02, y := 0x03, z := true, c := true } =
    some ⟨0x01, 0x02, 0x03, 0xFF, 0x0001, true, true⟩ := by decide
/-- N3: PC leaves a small memory without a fault. -/
theorem test_NOP_N3 : stepView (boot 0x100 0x00FF [0xEA]) =
    some ⟨0x00, 0x00, 0x00, 0xFF, 0x0100, false, false⟩ := by decide
/-- BC8: a negative sum wraps. -/
theorem test_BNE_BC8 : stepView (boot 65536 0 [0xD0, 0x80]) =
    some ⟨0x00, 0x00, 0x00, 0xFF, 0xFF82, false, false⟩ := by decide
/-- BC13: not taken, and the offset byte is fetched all the same. -/
theorem test_BNE_BC13 : faultOf (step { boot 65536 0xFFFF [0xD0] with z := true }) = some (.outOfRange 0x10000) := by
  decide
/-- BC9: the sum passes the top. -/
theorem test_BEQ_BC9 : stepView { boot 65536 0xFFF0 [0xF0, 0x7F] with z := true } =
    some ⟨0x00, 0x00, 0x00, 0xFF, 0x0071, true, false⟩ := by decide
/-- BC2: not taken. -/
theorem test_BEQ_BC2 : stepView (boot 65536 0 [0xF0, 0x0A]) =
    some ⟨0x00, 0x00, 0x00, 0xFF, 0x0002, false, false⟩ := by decide
/-- F3 and F4: decode comes before any operand fetch. -/
theorem test_unimplemented_F3_F4 :
    faultOf (step (boot 65536 0xFFFF [0xFF])) = some (.unimplementedOpcode 0xFF) ∧
    faultOf (step (boot 0x100 0x00FF [0x02])) = some (.unimplementedOpcode 0x02) := by decide
/-- F5 and F6: opcode fetch out of range. -/
theorem test_fetch_out_of_range_F5_F6 :
    faultOf (step (boot 0x100 0x0100 [])) = some (.outOfRange 0x100) ∧
    faultOf (step (boot 0 0 [])) = some (.outOfRange 0) := by decide
/-- F1: nothing loaded. -/
theorem test_reset_step_F1 : faultOf (step State.reset) = some (.unimplementedOpcode 0x00) := by decide
/-- The host's question of a word placed by `withFetchWord` at reset. -/
theorem test_withFetchWord_runs_first :
    stepView (State.reset.withFetchWord 16 0b01000010_10101001) =
      some ⟨0x42, 0x00, 0x00, 0xFF, 0x0002, false, false⟩ := by decide

/-! ### The host's ports -/

/-- W2: values are reduced modulo 256, addresses are checked, negative ones included. -/
theorem test_host_memory_W2 :
    (transact (.readByte 0xFFFF) (transact (.writeByte 0xFFFF 0x1AB) State.reset).1).2 = .byte 0xAB ∧
    (transact (.readByte 0x10000) State.reset).2 = .fault (.outOfRange 0x10000) ∧
    transact (.writeByte (-1) 0) State.reset = (State.reset, .fault (.outOfRange (-1))) := by decide
/-- W1: `set(-1)` gives 0xFF, `set(-126)` on PC gives 0xFF82. -/
theorem test_host_registers_W1 :
    (transact (.setReg (.r8 .sp) (-1)) State.reset).1.sp = 0xFF ∧
    (transact (.setReg (.r8 .a) 0x1FF) State.reset).1.a = 0xFF ∧
    (transact (.setReg .pc (-126)) State.reset).1.pc = 0xFF82 := by decide
/-- F9: recovery by the host. -/
theorem test_host_recovery_F9 :
    (transactAll [.step, .writeByte 0 0xEA, .step] (boot 65536 0 [0xFF])).pc = 0x0001 := by decide
/-- The memory is written once and back: it is canonical, and writing zero removes the entry. -/
theorem test_memory_canonical :
    (((State.reset.mem.setCell 5 1).setCell 3 2).setCell 5 0) = ⟨65536, [(3, 2)]⟩ := by decide

/-! ### Witnesses: for every statement with hypotheses, values that meet them -/

theorem witness_OpcodeMapIsTheTable : (0xFF : Byte) ∉ opcodes := by decide
theorem witness_DecodedBytesAreTheEncoding : decode [0x8D, 0x00, 0x02, 0xEA] = .ok (.sta 0x0200, [0xEA]) := rfl
theorem witness_LengthFromOpcodeByte :
    (boot 65536 0xFFFF [0xFF]).has 0 ∧ instrLength ((boot 65536 0xFFFF [0xFF]).byteAt 0) = none := by decide
theorem witness_UnimplementedOpcodesFault :
    (boot 65536 0xFFFF [0xFF]).has 0 ∧ (boot 65536 0xFFFF [0xFF]).byteAt 0 ∉ opcodes ∧ (0xF0 : Byte) ∈ opcodes := by
  decide
theorem witness_UnimplementedOpcodeExactlyWhen :
    (boot 0x100 0x00FF [0x02]).has 0 ∧ (boot 0x100 0x00FF [0x02]).byteAt 0 = 0x02 ∧ (0x02 : Byte) ∉ opcodes := by decide
theorem witness_AssembledBranchReachesTarget :
    asmOffset (boot 65536 0x0000 []).pc.toNat (-126) = some 0x80 ∧ (boot 65536 0x0000 []).z = false ∧
    asmOffset (boot 65536 0xFFFF []).pc.toNat (0xFFFF + 129) = some 0x7F ∧
    ({ boot 65536 0xFFFF [] with z := true } : State).z = true := by decide
theorem witness_StepRunsDecodedInstruction :
    decode (boot 65536 0xFFFD [0x8D, 0x00, 0x02]).codeWindow = .ok (.sta 0x0200, []) := rfl
theorem witness_StepRunsEncodedInstruction :
    ∀ k : Nat, k < (encode (.sta 0x0200)).length →
      (boot 65536 0xFFFD [0x8D, 0x00, 0x02]).has k ∧
      (encode (.sta 0x0200))[k]? = some ((boot 65536 0xFFFD [0x8D, 0x00, 0x02]).byteAt k) := by decide
/-- Every outcome of R177's five checks, at the boundary of each, and none. -/
theorem witness_ChecksInFixedOrder :
    firstFault (boot 0x100 0x0100 []) = some (.outOfRange 0x100) ∧
    firstFault (boot 0x100 0x00FF [0x02]) = some (.unimplementedOpcode 0x02) ∧
    firstFault (boot 0x100 0x00FF [0x8D]) = some (.outOfRange 0x100) ∧
    firstFault (boot 0x100 0x00FE [0x8D, 0x00]) = some (.outOfRange 0x100) ∧
    firstFault (boot 0x100 0x00FD [0x8D, 0x00, 0x01]) = some (.outOfRange 0x100) ∧
    firstFault (boot 0x100 0x00FD [0x8D, 0xFF, 0x00]) = none ∧
    firstFault (boot 0x100 0x00FF [0xAA]) = none := by decide
theorem witness_FaultIsTheLastAccess :
    accesses (boot 0x100 0x00FD [0x8D, 0x00, 0x01]) = [.read 0xFD, .read 0xFE, .read 0xFF, .write 0x100] ∧
    faultOf (step (boot 0x100 0x00FD [0x8D, 0x00, 0x01])) = some (.outOfRange 0x100) := by decide
theorem witness_FaultPayloadBounds :
    step (boot 65536 0xFFFE [0x4C, 0x00]) = .fault (.outOfRange 0x10000) ∧ (boot 65536 0xFFFE []).mem.size ≤ 65536 :=
  ⟨rfl, by decide⟩
/-- The straddling ones: two bytes at 0xFFFF, a branch not taken among them, and three at 0xFFFE and at 0xFFFF. -/
theorem witness_TopOfAddressSpace :
    (boot 65536 0xFFFD [0x8D, 0x00, 0x02]).mem.size = 65536 ∧
    instrLength ((boot 65536 0xFFFD [0x8D, 0x00, 0x02]).byteAt 0) = some 3 ∧
    (boot 65536 0xFFFD [0x8D, 0x00, 0x02]).pc.toNat + 3 = 65536 ∧
    (∀ s ∈ [boot 65536 0xFFFF [0xA9], { boot 65536 0xFFFF [0xD0] with z := true }],
      s.mem.size = 65536 ∧ instrLength (s.byteAt 0) = some 2 ∧ 65536 < s.pc.toNat + 2) ∧
    (∀ s ∈ [boot 65536 0xFFFE [0x8D, 0x00], boot 65536 0xFFFF [0x8D], boot 65536 0xFFFF [0x4C]],
      s.mem.size = 65536 ∧ instrLength (s.byteAt 0) = some 3 ∧ 65536 < s.pc.toNat + 3) := by decide
theorem witness_FetchWordRunsNext :
    (boot 65536 0xFFFD []).has 2 ∧ decodeTableWord 16 0b11111010_11010000 = some (.bne 0xFA) := by decide
/-- For the statements about a step with its opcode fetch out of range. -/
theorem witness_OpcodeFetchFaults : ¬ (boot 0x100 0x0100 []).has 0 := by decide
theorem witness_ImmediateLoadStep :
    [0xA9, 0xA2, 0xA0].all (fun b0 => (boot 65536 0xFFFE [b0, 0x7F]).has 1 && (boot 65536 0xFFFE [b0, 0x7F]).has 0 &&
      (boot 65536 0xFFFE [b0, 0x7F]).byteAt 0 == b0 &&
      (boot 65536 0xFFFF [b0]).has 0 && (boot 65536 0xFFFF [b0]).byteAt 0 == b0 &&
      !(boot 65536 0xFFFF [b0]).has 1) = true := by decide
theorem witness_TransferStep_and_Nop :
    [0xAA, 0xA8, 0x8A, 0x98, 0xEA].all (fun b0 => (boot 65536 0xFFFF [b0]).has 0 &&
      (boot 65536 0xFFFF [b0]).byteAt 0 == b0) = true := by decide
theorem witness_AbsoluteStoreResult :
    (0xFFFF : Word).toNat < State.reset.mem.size ∧ (boot 0x100 0 []).mem.size ≤ (0x0100 : Word).toNat := by decide
/-- Stores and `JMP`: all three bytes in memory with the target inside and outside; no second byte; no third byte. -/
theorem witness_AbsoluteStoreStep_and_Jump :
    [0x8D, 0x8E, 0x8C, 0x4C].all (fun b0 =>
      (boot 0x100 0x00FD [b0, 0xFF, 0x00]).has 2 && (boot 0x100 0x00FD [b0, 0xFF, 0x00]).byteAt 0 == b0 &&
      decide ((boot 0x100 0x00FD [b0, 0xFF, 0x00]).wordAt.toNat < 0x100) &&
      (boot 0x100 0x00FD [b0, 0x00, 0x01]).has 2 && decide (0x100 ≤ (boot 0x100 0x00FD [b0, 0x00, 0x01]).wordAt.toNat) &&
      (boot 0x100 0x00FF [b0]).has 0 && !(boot 0x100 0x00FF [b0]).has 1 &&
      (boot 0x100 0x00FE [b0, 0x00]).has 1 && !(boot 0x100 0x00FE [b0, 0x00]).has 2) = true := by decide
/-- A store to the next opcode, and one to the next instruction's second byte. -/
theorem witness_StoredByteIsFetchedNext :
    (boot 65536 0 [0x8C, 0x03, 0x00]).has 2 ∧ (boot 65536 0 [0x8C, 0x03, 0x00]).byteAt 0 = 0x8C ∧
    (boot 65536 0 [0x8C, 0x03, 0x00]).wordAt.toNat < 65536 ∧
    ((boot 65536 0 [0x8C, 0x03, 0x00]).pc + 3).toNat + 0 = (boot 65536 0 [0x8C, 0x03, 0x00]).wordAt.toNat ∧
    ((boot 65536 0 [0x8C, 0x04, 0x00]).pc + 3).toNat + 1 = (boot 65536 0 [0x8C, 0x04, 0x00]).wordAt.toNat ∧
    (boot 65536 0 [0x8C, 0x03, 0x00]).reg .y ∉ opcodes := by decide
theorem witness_AddStep :
    (boot 65536 0xFFFE [0x69, 0x01]).has 1 ∧ (boot 65536 0xFFFE [0x69, 0x01]).byteAt 0 = 0x69 ∧
    (boot 65536 0xFFFF [0x69]).has 0 ∧ (boot 65536 0xFFFF [0x69]).byteAt 0 = 0x69 ∧
    ¬ (boot 65536 0xFFFF [0x69]).has 1 := by decide
/-- X1: `ADD #$FF` on A=00 gives A=FF, C=0; P5: `n` at the ends of its range. -/
theorem witness_SubtractionIdiom : (1 ≤ 1 ∧ 1 ≤ 255) ∧ (1 ≤ 255 ∧ 255 ≤ 255) := by decide
theorem witness_BranchResult :
    (0x7F : Byte).toNat < 0x80 ∧ 0x80 ≤ (0x80 : Byte).toNat ∧ (boot 65536 0 []).z = false ∧
    ({ boot 65536 0 [] with z := true } : State).z = true := by decide
theorem witness_BranchStep :
    [0xD0, 0xF0].all (fun b0 => (boot 65536 0xFFFE [b0, 0x10]).has 1 && (boot 65536 0xFFFE [b0, 0x10]).byteAt 0 == b0 &&
      (boot 65536 0xFFFF [b0]).has 0 && (boot 65536 0xFFFF [b0]).byteAt 0 == b0 &&
      !(boot 65536 0xFFFF [b0]).has 1) = true := by decide
/-- For every statement whose hypothesis is that an instruction completes. -/
theorem witness_exec_next :
    exec .nop (boot 0x100 0x00FF []) = .next { boot 0x100 0x00FF [] with pc := 0x0100 } := rfl
theorem witness_PcIsComputedValueMod :
    exec (.bne 0x80) (boot 65536 0x0000 []) = .next { boot 65536 0x0000 [] with pc := 0xFF82 } := rfl
theorem witness_TransferOutsideMemoryFaultsNextStep :
    (boot 0x100 0 []).mem.size ≤ (0x0100 : Word).toNat ∧
    (boot 0x100 0x00FE []).mem.size ≤ ((boot 0x100 0x00FE []).pc + 2 + (0x7F : Byte).signExtend 16).toNat ∧
    (boot 0x100 0x00FF []).mem.size ≤ (0x0100 : Word).toNat := by decide
theorem witness_SelfTransferLoopsForever :
    (boot 65536 0x8000 [0x4C, 0x00, 0x80]).has 2 ∧ (boot 65536 0x8000 [0x4C, 0x00, 0x80]).byteAt 0 = 0x4C ∧
    (boot 65536 0x8000 [0x4C, 0x00, 0x80]).wordAt = (boot 65536 0x8000 [0x4C, 0x00, 0x80]).pc ∧
    (boot 65536 0x0100 [0xD0, 0xFE]).has 1 ∧ (boot 65536 0x0100 [0xD0, 0xFE]).byteAt 0 = 0xD0 ∧
    (boot 65536 0x0100 [0xD0, 0xFE]).byteAt 1 = 0xFE ∧ (boot 65536 0x0100 [0xD0, 0xFE]).z = false ∧
    ({ boot 65536 0x0100 [0xF0, 0xFE] with z := true } : State).byteAt 0 = 0xF0 ∧
    ({ boot 65536 0x0100 [0xF0, 0xFE] with z := true } : State).has 1 = true ∧
    ({ boot 65536 0x0100 [0xF0, 0xFE] with z := true } : State).byteAt 1 = 0xFE ∧
    ({ boot 65536 0x0100 [0xF0, 0xFE] with z := true } : State).z = true := by decide
theorem witness_FlagsWrittenByAddReadByBranches :
    isAdd .nop = false ∧ isBranch (.add 1) = false ∧
    exec .nop (boot 0x100 0 []) = .next { boot 0x100 0 [] with pc := 0x0001 } := ⟨rfl, rfl, rfl⟩
/-- A store: it writes no register, and the cells beside its target are outside it. -/
theorem witness_RegistersAndMemoryFrame :
    (nextOf (exec (.sta 0x0010) (boot 0x100 0 []))).isSome = true ∧ writtenReg (.sta 0x0010) ≠ some .a ∧
    storeTarget (.sta 0x0010) = some 0x0010 ∧ (0x000F : Nat) ≠ (0x0010 : Word).toNat ∧ storeTarget .nop = none := by
  decide
theorem witness_SpAndMemoryLengthNeverChange :
    run 2 (boot 65536 0 [0xEA, 0xEA]) = .next { boot 65536 0 [0xEA, 0xEA] with pc := 0x0002 } := rfl
/-- A run that completes and one that faults. -/
theorem witness_SpAndCarryUnobservable :
    (nextOf (run 2 (boot 65536 0 [0x69, 0xFF, 0xEA]))).isSome = true ∧
    faultOf (run 2 (boot 65536 0 [0x69, 0xFF])) = some (.unimplementedOpcode 0x00) := by decide
theorem witness_MemoryReadWriteContract :
    ((0 : Int) ≤ 0 ∧ (0 : Int) < State.reset.mem.size) ∧ ((0 : Int) ≤ 65535 ∧ (65535 : Int) < State.reset.mem.size) ∧
    ((-1 : Int) < 0) ∧ (State.reset.mem.size : Int) ≤ 65536 := by decide
theorem witness_HostAccessesTakeEffectAtOnce :
    (boot 65536 0xFFFD [0x8C, 0xFF, 0xFF]).has 2 ∧ (boot 65536 0xFFFD [0x8C, 0xFF, 0xFF]).byteAt 0 = 0x8C ∧
    (boot 65536 0xFFFD [0x8C, 0xFF, 0xFF]).wordAt.toNat < 65536 := by decide
theorem witness_CanonicalMemoryIsExtensional :
    Memory.wf ⟨16, [(3, 2), (5, 1)]⟩ ∧ ((Memory.mk 16 []).setCell 5 1).setCell 3 2 = ⟨16, [(3, 2), (5, 1)]⟩ := by
  decide
theorem witness_StepKeepsCanonicalMemory :
    ({ boot 0x100 0x00FD [0x8D, 0xFF, 0x00] with a := 0x07 } : State).Inv ∧
    (nextOf (step { boot 0x100 0x00FD [0x8D, 0xFF, 0x00] with a := 0x07 })).isSome = true := by decide
theorem witness_HostInterleavingKeepsInvariant : State.reset.Inv := by decide
theorem witness_ResetDiscardsEverything : (boot 65536 5 [1, 2]).mem.size = State.reset.mem.size := by decide
theorem witness_EmptyMachineFaults : 1 ≤ 1 ∧ (0 : Nat) = 0 := by decide
theorem witness_ResetValues : (0 : Int) ≤ 65535 ∧ (65535 : Int) < (65536 : Nat) := by decide
theorem witness_RegisterSetGetWraps : (.pc : RegName) ≠ .r8 .a ∧ (.r8 .sp : RegName) ≠ .r8 .a := by decide
theorem witness_FaultChangesNothingAndRepeats :
    step (boot 65536 0 [0xFF]) = .fault (.unimplementedOpcode 0xFF) := rfl
theorem witness_HostRecoversFromFault :
    step (boot 65536 0xFFFF [0xA9]) = .fault (.outOfRange 0x10000) ∧ (boot 65536 0xFFFF [0xA9]).has 0 = true :=
  ⟨rfl, by decide⟩
/-- The premises of every clause; the three self-transfers are those of `witness_SelfTransferLoopsForever`. -/
theorem witness_EndOfRunIsThePositionOfPc :
    (boot 65536 0x8000 [0x4C, 0x00, 0x80]).pc ≠ 0x0009 ∧ (boot 65536 0x0100 [0xD0, 0xFE]).pc ≠ 0x0102 ∧
    (∀ s ∈ [boot 0x100 0x0100 [], boot 0x100 0x00FF [0x02], boot 0x100 0x00FF [0x8D], boot 0x100 0x00FE [0x8D, 0x00],
        boot 0x100 0x00FD [0x8D, 0x00, 0x01], boot 65536 0xFFFF [0xD0]], s.pc ≠ 0x0000 ∧ (firstFault s).isSome) ∧
    (boot 65536 0xFFFD [0x4C, 0x00, 0x00]).has 2 ∧ (boot 65536 0xFFFD [0x4C, 0x00, 0x00]).byteAt 0 = 0x4C ∧
    (boot 65536 0xFFFD [0x4C, 0x00, 0x00]).wordAt ≠ (boot 65536 0xFFFD [0x4C, 0x00, 0x00]).pc ∧
    (boot 65536 0xFFFF [0xEA]).has 0 ∧ (boot 65536 0xFFFF [0xEA]).byteAt 0 = 0xEA := by decide
/-- The premises of `DoesNotStop` after the `JMP` and after the `NOP`: a `NOP` at the end address, which completes, and an
unwritten cell there. -/
theorem witness_DoesNotStop :
    (boot 65536 0x0000 [0x4C, 0x03, 0x00, 0xEA]).wordAt = 0x0003 ∧
    (∀ t ∈ [({ boot 65536 0x0000 [0x4C, 0x03, 0x00, 0xEA] with pc := 0x0003 } : State),
        { boot 65536 0x0000 [0xEA, 0xEA] with pc := 0x0001 }],
      firstFault t = none ∧ t.has 0 ∧ t.byteAt 0 = 0xEA) ∧
    (∀ t ∈ [({ boot 65536 0xFFFD [0x4C, 0x00, 0x00] with pc := 0x0000 } : State),
        { boot 65536 0xFFFF [0xEA] with pc := 0x0000 }],
      t.has 0 ∧ t.byteAt 0 = 0x00) := by decide

end Sys2Proof.Tests
end

section
/-! The host's inspection of the machine between steps (R7): what each reading transaction answers, and that it leaves
the state as it was. -/

namespace Sys2Proof.Machine

@[simp] theorem State.getReg_r8 (s : State) (r : Reg8) : s.getReg (.r8 r) = (s.reg r).toNat := rfl
@[simp] theorem State.getReg_pc (s : State) : s.getReg .pc = s.pc.toNat := rfl
@[simp] theorem State.getFlag_z (s : State) : s.getFlag .z = s.z := rfl
@[simp] theorem State.getFlag_c (s : State) : s.getFlag .c = s.c := rfl

@[simp] theorem transact_getReg (r : RegName) (s : State) :
    transact (.getReg r) s = (s, .number (s.getReg r)) := rfl
@[simp] theorem transact_getFlag (f : FlagName) (s : State) :
    transact (.getFlag f) s = (s, .flag (s.getFlag f)) := rfl
@[simp] theorem transact_size (s : State) : transact .size s = (s, .number s.mem.size) := rfl

/-- Everything the host's `read_byte` can do (R6, R51). -/
theorem transact_readByte_cases (a : Int) (s : State) :
    (0 ≤ a ∧ a < (s.mem.size : Int) ∧ transact (.readByte a) s = (s, .byte (s.mem.cell a.toNat))) ∨
    ((a < 0 ∨ (s.mem.size : Int) ≤ a) ∧ transact (.readByte a) s = (s, .fault (.outOfRange a))) := by
  rcases memRead_cases s.mem a with ⟨hlo, hhi, hread⟩ | ⟨hout, hread⟩
  · exact .inl ⟨hlo, hhi, by simp [transact, hread]⟩
  · exact .inr ⟨hout, by simp [transact, hread]⟩

/-- `read_byte` keeps the state whether it answers a byte or a fault (R7, R187). -/
@[simp] theorem transact_readByte_state (a : Int) (s : State) : (transact (.readByte a) s).1 = s := by
  rcases transact_readByte_cases a s with ⟨-, -, h⟩ | ⟨-, h⟩ <;> rw [h]

theorem transact_readByte_of_lt {a : Nat} {s : State} (ha : a < s.mem.size) :
    transact (.readByte a) s = (s, .byte (s.mem.cell a)) := by
  rcases transact_readByte_cases a s with ⟨-, -, h⟩ | ⟨hout, -⟩
  · exact h
  · omega

/-- Settles O51: every reading transaction answers from the state it is given and keeps it; `read_byte` by the two
cases of the memory read. -/
theorem inspectionChangesNothing : Obligations.InspectionChangesNothing := fun s =>
  ⟨transact_getReg (.r8 .a) s, transact_getReg (.r8 .x) s, transact_getReg (.r8 .y) s, transact_getReg (.r8 .sp) s,
    transact_getReg .pc s, transact_getFlag .z s, transact_getFlag .c s, transact_size s,
    fun a => transact_readByte_state a s, fun _ ha => transact_readByte_of_lt ha⟩

end Sys2Proof.Machine
end

section
/-! What an instruction and a step do to the state, said once: the state a completed instruction leaves (`effect`), when
it completes, which parts of the state it reads and writes, and what a run keeps. -/

namespace Sys2Proof.Machine

open Sys2Proof.Stmt

/-! ### Register cells -/

/-- R21: a 16-bit cell holds the integer modulo 65536. -/
theorem toNat_toReg16 (v : Int) : ((toReg16 v).toNat : Int) = v % 65536 := by
  simp only [toReg16, BitVec.toNat_ofInt]
  omega

/-- R21: an 8-bit cell holds the integer modulo 256. -/
theorem toNat_toReg8 (v : Int) : ((toReg8 v).toNat : Int) = v % 256 := by
  simp only [toReg8, BitVec.toNat_ofInt]
  omega

/-- R27: the sequential advance, as the integer sum reduced when it is stored. -/
theorem toReg16_add_nat (pc : Word) (n : Nat) : toReg16 ((pc.toNat : Int) + n) = pc + BitVec.ofNat 16 n :=
  State.advance_pc { State.reset with pc := pc } n

/-! ### The ALU's flags (R29, R30, R150) -/

theorem aluAdd_zero_iff (a b : Byte) : (aluAdd a b).zero = true ↔ (aluAdd a b).result = 0 := by simp [aluAdd]
theorem aluAdd_carry_iff (a b : Byte) : (aluAdd a b).carry = true ↔ a.toNat + b.toNat > 255 := by simp [aluAdd]

/-! ### The meaning of an instruction as one state function -/

/-- The state an instruction leaves when it completes (R120 to R163). -/
def effect (i : Instr) (s : State) : State :=
  match i with
  | .lda value => { s with a := value, pc := s.pc + 2 }
  | .ldx value => { s with x := value, pc := s.pc + 2 }
  | .ldy value => { s with y := value, pc := s.pc + 2 }
  | .sta addr => { s with mem := s.mem.setCell addr.toNat s.a, pc := s.pc + 3 }
  | .stx addr => { s with mem := s.mem.setCell addr.toNat s.x, pc := s.pc + 3 }
  | .sty addr => { s with mem := s.mem.setCell addr.toNat s.y, pc := s.pc + 3 }
  | .tax => { s with x := s.a, pc := s.pc + 1 }
  | .tay => { s with y := s.a, pc := s.pc + 1 }
  | .txa => { s with a := s.x, pc := s.pc + 1 }
  | .tya => { s with a := s.y, pc := s.pc + 1 }
  | .add value =>
    { s with
      a := (aluAdd s.a value).result
      z := (aluAdd s.a value).zero
      c := (aluAdd s.a value).carry
      pc := s.pc + 2 }
  | .jmp addr => { s with pc := addr }
  | .nop => { s with pc := s.pc + 1 }
  | .bne offset => { s with pc := if s.z then s.pc + 2 else s.pc + 2 + offset.signExtend 16 }
  | .beq offset => { s with pc := if s.z then s.pc + 2 + offset.signExtend 16 else s.pc + 2 }

theorem State.advance_eq (s : State) (n : Nat) : s.advance n = { s with pc := s.pc + BitVec.ofNat 16 n } :=
  congrArg (fun pc => { s with pc := pc }) (s.advance_pc n)

theorem execAdd_next (value : Byte) (s : State) : execAdd value s = .next (effect (.add value) s) :=
  congrArg Host.Outcome.next (State.advance_eq _ 2)

theorem execJmp_next (addr : Word) (s : State) : execJmp addr s = .next (effect (.jmp addr) s) := by
  have hpc : toReg16 (addr.toNat : Int) = addr := by simpa using toReg16_add_nat addr 0
  exact congrArg (fun pc => Host.Outcome.next { s with pc := pc }) hpc

theorem execNop_next (s : State) : execNop s = .next (effect .nop s) :=
  congrArg Host.Outcome.next (s.advance_eq 1)

theorem execBne_next (offset : Byte) (s : State) : execBne offset s = .next (effect (.bne offset) s) := by
  rw [execBne, branchIf_next, effect]
  cases s.z <;> rfl

/-- A store completes exactly when its target exists; every other instruction always does (R130 to R132, R171). -/
theorem exec_cases (i : Instr) (s : State) :
    ((∀ addr, storeTarget i = some addr → addr.toNat < s.mem.size) ∧ exec i s = .next (effect i s)) ∨
    ∃ addr, storeTarget i = some addr ∧ s.mem.size ≤ addr.toNat ∧ exec i s = .fault (.outOfRange addr.toNat) := by
  cases i with
  | lda value | ldx value | ldy value => exact .inl ⟨nofun, loadImmediate_next _ value s⟩
  | sta addr | stx addr | sty addr =>
    rcases storeAbsolute_cases _ addr s with ⟨hin, h⟩ | ⟨hout, h⟩
    · exact .inl ⟨fun _ ht => Option.some.inj ht ▸ hin, h⟩
    · exact .inr ⟨addr, rfl, hout, h⟩
  | tax | tay | txa | tya => exact .inl ⟨nofun, transfer_next _ _ s⟩
  | add value => exact .inl ⟨nofun, execAdd_next value s⟩
  | jmp addr => exact .inl ⟨nofun, execJmp_next addr s⟩
  | nop => exact .inl ⟨nofun, execNop_next s⟩
  | bne offset => exact .inl ⟨nofun, execBne_next offset s⟩
  | beq offset => exact .inl ⟨nofun, branchIf_next s.z offset s⟩

theorem exec_of_target_lt {i : Instr} {s : State} (h : ∀ addr, storeTarget i = some addr → addr.toNat < s.mem.size) :
    exec i s = .next (effect i s) := by
  rcases exec_cases i s with ⟨-, he⟩ | ⟨addr, ht, hout, -⟩
  · exact he
  · exact absurd (h addr ht) (by omega)

theorem exec_of_not_store {i : Instr} (h : storeTarget i = none) (s : State) : exec i s = .next (effect i s) :=
  exec_of_target_lt fun addr ht => by simp [h] at ht

theorem exec_of_target_ge {i : Instr} {s : State} {addr : Word} (ht : storeTarget i = some addr)
    (h : s.mem.size ≤ addr.toNat) : exec i s = .fault (.outOfRange addr.toNat) := by
  rcases exec_cases i s with ⟨hin, -⟩ | ⟨addr', ht', -, he⟩
  · exact absurd (hin addr ht) (by omega)
  · rw [ht] at ht'
    cases ht'
    exact he

/-- A completed instruction leaves exactly its effect. -/
theorem eq_effect_of_exec {i : Instr} {s t : State} (h : exec i s = .next t) : t = effect i s := by
  rcases exec_cases i s with ⟨-, he⟩ | ⟨_, -, -, he⟩ <;> rw [he] at h <;> cases h
  rfl

/-! ### What an effect changes and what it leaves -/

/-- R27 and R108: the PC stored is the integer the rule gives, reduced by the register cell. -/
theorem effect_pc (i : Instr) (s : State) : (effect i s).pc = toReg16 (newPc i s) := by
  have seq (n : Nat) := (toReg16_add_nat s.pc n).symm
  have taken (offset : Byte) :
      s.pc + 2 + offset.signExtend 16 = toReg16 ((s.pc.toNat : Int) + 2 + offset.toInt) := by
    rw [← toReg16_branchTarget, branchTarget, s8_eq_toInt]
  cases i with
  | tax | tay | txa | tya | nop => exact seq 1
  | lda | ldx | ldy | add => exact seq 2
  | sta | stx | sty => exact seq 3
  | jmp addr => simpa [effect, newPc] using (toReg16_add_nat addr 0).symm
  | bne offset =>
    simp only [effect, newPc]
    split
    · exact seq 2
    · exact taken offset
  | beq offset =>
    simp only [effect, newPc]
    split
    · exact taken offset
    · exact seq 2

/-- The frame of the 8-bit registers (the state table under R20). -/
theorem effect_reg {i : Instr} {r : Reg8} (h : writtenReg i ≠ some r) (s : State) : (effect i s).reg r = s.reg r := by
  cases i with
  | lda | txa | tya | add => cases r with
    | a => exact absurd rfl h
    | x | y | sp => rfl
  | ldx | tax => cases r with
    | x => exact absurd rfl h
    | a | y | sp => rfl
  | ldy | tay => cases r with
    | y => exact absurd rfl h
    | a | x | sp => rfl
  | sta | stx | sty | jmp | nop | bne | beq => cases r <;> rfl

/-- No instruction writes SP (R25). -/
@[simp] theorem effect_sp (i : Instr) (s : State) : (effect i s).sp = s.sp := by cases i <;> rfl

/-- Only `ADD` writes the flags (R29, R30). -/
theorem effect_flags {i : Instr} (h : isAdd i = false) (s : State) :
    (effect i s).z = s.z ∧ (effect i s).c = s.c := by
  cases i with
  | add value => cases h
  | _ => exact ⟨rfl, rfl⟩

@[simp] theorem ite_isAdd_effect_z (i : Instr) (s : State) :
    (if isAdd i then (effect i s).z else s.z) = (effect i s).z := by
  cases h : isAdd i
  · exact (effect_flags h s).1.symm
  · rfl

@[simp] theorem ite_isAdd_effect_c (i : Instr) (s : State) :
    (if isAdd i then (effect i s).c else s.c) = (effect i s).c := by
  cases h : isAdd i
  · exact (effect_flags h s).2.symm
  · rfl

/-- The memory after an instruction: a store's one cell, else as it was (R70). -/
theorem effect_mem (i : Instr) (s : State) :
    (storeTarget i = none ∧ (effect i s).mem = s.mem) ∨
    ∃ (addr : Word) (v : Byte), storeTarget i = some addr ∧ (effect i s).mem = s.mem.setCell addr.toNat v := by
  cases i with
  | sta addr | stx addr | sty addr => exact .inr ⟨addr, _, rfl, rfl⟩
  | _ => exact .inl ⟨rfl, rfl⟩

@[simp] theorem effect_mem_size (i : Instr) (s : State) : (effect i s).mem.size = s.mem.size := by
  rcases effect_mem i s with ⟨-, h⟩ | ⟨addr, v, -, h⟩ <;> rw [h]
  rfl

/-! ### What an instruction does not read -/

/-- An effect reads neither SP nor C, and only a branch's reads Z: whatever values they have are handed on, but for the
flags an `ADD` writes (R25, R29, R30). -/
theorem effect_unread (i : Instr) (s : State) (sp : Byte) (z c : Bool) (hz : isBranch i = true → z = s.z) :
    effect i { s with sp := sp, z := z, c := c } =
      { effect i s with
        sp := sp
        z := if isAdd i then (effect i s).z else z
        c := if isAdd i then (effect i s).c else c } := by
  cases i with
  | bne | beq =>
    obtain rfl := hz rfl
    rfl
  | _ => rfl

/-- `effect_unread` for the whole outcome: whether a store faults depends on neither. -/
theorem exec_unread (i : Instr) (s : State) (sp : Byte) (z c : Bool) (hz : isBranch i = true → z = s.z) :
    exec i { s with sp := sp, z := z, c := c } =
      mapNext
        (fun t => { t with sp := sp, z := if isAdd i then t.z else z, c := if isAdd i then t.c else c })
        (exec i s) := by
  rcases exec_cases i s with ⟨hin, h⟩ | ⟨addr, ht, hout, h⟩
  · rw [h, mapNext, ← effect_unread i s sp z c hz]
    exact exec_of_target_lt hin
  · rw [h, mapNext]
    exact exec_of_target_ge ht hout

theorem mapNext_congr {f g : State → State} {r : Result} (h : ∀ t, r = .next t → f t = g t) :
    mapNext f r = mapNext g r := by
  cases r with
  | next t => exact congrArg _ (h t rfl)
  | fault f => rfl
  | refused r => rfl

/-! ### The step -/

theorem step_of_fetch {s : State} {i : Instr} (h : fetch s = .ok i) : step s = exec i s := by rw [step, h]

theorem step_of_fetch_error {s : State} {f : Fault} (h : fetch s = .error f) : step s = .fault f := by
  rw [step, h]
  rfl

/-- A completed step is one instruction's effect. -/
theorem eq_effect_of_step {s t : State} (h : step s = .next t) : ∃ i, t = effect i s := by
  cases hf : fetch s with
  | error f => rw [step_of_fetch_error hf] at h; cases h
  | ok i => exact ⟨i, eq_effect_of_exec (step_of_fetch hf ▸ h)⟩

/-- With PC outside memory the opcode fetch faults (R101, R177). -/
theorem step_of_pc_outside {s : State} (h : s.mem.size ≤ s.pc.toNat) : step s = .fault (.outOfRange s.pc.toNat) := by
  have hno : s.has 0 = false := by rw [← Bool.not_eq_true, State.has_iff]; omega
  exact step_of_fetch_error (by simp [fetch, fetchByte_error hno])

/-- The fetch reads PC and the memory alone. -/
theorem fetch_unread (s : State) (sp : Byte) (z c : Bool) : fetch { s with sp := sp, z := z, c := c } = fetch s := rfl

/-! ### Runs -/

theorem run_succ_next {s u : State} (h : step s = .next u) (n : Nat) : run (n + 1) s = run n u := by rw [run, h]
theorem run_succ_fault {s : State} {f : Fault} (h : step s = .fault f) (n : Nat) : run (n + 1) s = .fault f := by
  rw [run, h]
theorem run_succ_refused {s : State} {r : Refusal} (h : step s = .refused r) (n : Nat) :
    run (n + 1) s = .refused r := by rw [run, h]

/-- What holds at the start and is kept by every completed step holds at the end of a completed run. -/
theorem run_keeps {P : State → Prop} (hstep : ∀ u v, P u → step u = .next v → P v) {n : Nat} {s t : State} (hs : P s)
    (h : run n s = .next t) : P t := by
  induction n generalizing s with
  | zero => cases h; exact hs
  | succ n ih =>
    cases hu : step s with
    | next u => exact ih (hstep s u hs hu) (run_succ_next hu n ▸ h)
    | fault f => rw [run_succ_fault hu] at h; cases h
    | refused r => rw [run_succ_refused hu] at h; cases h

/-! ### Registers, flags and memory across instructions and runs -/

/-- Settles O33: the PC of the effect is the rule's integer, reduced by the 16-bit cell. -/
theorem pcIsComputedValueMod : Obligations.PcIsComputedValueMod := by
  intro i s t h
  rw [eq_effect_of_exec h, effect_pc, toNat_toReg16]

theorem step_of_exec_outside {i : Instr} {s t : State} (h : exec i s = .next t) (hout : s.mem.size ≤ t.pc.toNat) :
    step t = .fault (.outOfRange t.pc.toNat) := by
  apply step_of_pc_outside
  rwa [eq_effect_of_exec h, effect_mem_size, ← eq_effect_of_exec h]

/-- Settles O34: a jump and a taken branch complete whatever their target, and the next opcode fetch is what faults. -/
theorem transferOutsideMemoryFaultsNextStep : Obligations.TransferOutsideMemoryFaultsNextStep := by
  refine ⟨fun addr s hout => ?_, fun offset s hout => ?_, fun i s t => step_of_exec_outside⟩
  · have hjmp := exec_of_not_store (i := .jmp addr) rfl s
    exact ⟨_, hjmp, rfl, step_of_exec_outside hjmp hout⟩
  · have htaken : (if s.z then exec (.beq offset) s else exec (.bne offset) s) =
        .next { s with pc := s.pc + 2 + offset.signExtend 16 } := by
      cases hz : s.z with
      | false => simpa [effect, hz] using exec_of_not_store (i := .bne offset) rfl s
      | true => simpa [effect, hz] using exec_of_not_store (i := .beq offset) rfl s
    exact ⟨_, htaken, rfl, step_of_pc_outside hout⟩

/-- Settles O36: the flags of an effect, and what an instruction does not read. -/
theorem flagsWrittenByAddReadByBranches : Obligations.FlagsWrittenByAddReadByBranches := by
  refine ⟨fun i s t hadd h => ?_, fun value s => ?_, fun i s z hbr => ?_, fun i s c => ?_⟩
  · rw [eq_effect_of_exec h]
    exact effect_flags hadd s
  · exact ⟨_, exec_of_not_store rfl s, aluAdd_zero_iff s.a value, aluAdd_carry_iff s.a value⟩
  · have hread := exec_unread i s s.sp z s.c (by simp [hbr])
    refine hread.trans (mapNext_congr fun t h => ?_)
    simp [eq_effect_of_exec h]
  · have hread := exec_unread i s s.sp s.z c fun _ => rfl
    refine hread.trans (mapNext_congr fun t h => ?_)
    simp [eq_effect_of_exec h]

/-- Settles O37: the register frame and the memory frame of an effect. -/
theorem registersAndMemoryFrame : Obligations.RegistersAndMemoryFrame := by
  intro i s t h
  rw [eq_effect_of_exec h]
  refine ⟨fun r hr => effect_reg hr s, fun a ha => ?_, fun hnone => ?_, effect_mem_size i s⟩
  · rcases effect_mem i s with ⟨-, hm⟩ | ⟨addr, v, ht, hm⟩
    · rw [hm]
    · rw [hm, Memory.cell_setCell, if_neg (ha addr ht)]
  · rcases effect_mem i s with ⟨-, hm⟩ | ⟨addr, v, ht, -⟩
    · exact hm
    · simp [hnone] at ht

/-- Settles O38: every step keeps both, and so does a run. -/
theorem spAndMemoryLengthNeverChange : Obligations.SpAndMemoryLengthNeverChange := by
  intro n s t
  refine run_keeps (P := fun u => u.sp = s.sp ∧ u.mem.size = s.mem.size) ?_ ⟨rfl, rfl⟩
  rintro u v ⟨hsp, hsize⟩ hstep
  obtain ⟨i, rfl⟩ := eq_effect_of_step hstep
  exact ⟨(effect_sp i u).trans hsp, (effect_mem_size i u).trans hsize⟩

/-! ### SP and C cannot be observed (R25, R30) -/

/-- `r'` is the answer `r` from `s`, given by a machine that started with another SP and C: the same fault, or a next
state that agrees in everything but SP and C, SP being kept and C either written alike or kept on both sides. -/
def SameButSpCarry (s : State) (sp : Byte) (c : Bool) (r r' : Result) : Prop :=
  match r with
  | .next t => ∃ c' : Bool, r' = .next { t with sp := sp, c := c' } ∧ t.sp = s.sp ∧ (c' = t.c ∨ (c' = c ∧ t.c = s.c))
  | .fault f => r' = .fault f
  | .refused q => r' = .refused q

theorem exec_sameButSpCarry (i : Instr) (s : State) (sp : Byte) (c : Bool) :
    SameButSpCarry s sp c (exec i s) (exec i { s with sp := sp, c := c }) := by
  have hread := exec_unread i s sp s.z c fun _ => rfl
  rcases exec_cases i s with ⟨-, h⟩ | ⟨addr, -, -, h⟩
  · rw [h] at hread ⊢
    cases hadd : isAdd i with
    | false =>
      obtain ⟨hz, hc⟩ := effect_flags hadd s
      exact ⟨c, by simpa [mapNext, hadd, ← hz] using hread, effect_sp i s, .inr ⟨rfl, hc⟩⟩
    | true => exact ⟨(effect i s).c, by simpa [mapNext, hadd] using hread, effect_sp i s, .inl rfl⟩
  · rw [h] at hread ⊢
    exact hread

theorem step_sameButSpCarry (s : State) (sp : Byte) (c : Bool) :
    SameButSpCarry s sp c (step s) (step { s with sp := sp, c := c }) := by
  have hfetch := fetch_unread s sp s.z c
  cases hf : fetch s with
  | error f =>
    rw [step_of_fetch_error hf, step_of_fetch_error (hfetch.trans hf)]
    rfl
  | ok i =>
    rw [step_of_fetch hf, step_of_fetch (hfetch.trans hf)]
    exact exec_sameButSpCarry i s sp c

/-- Agreement after a step, then from there on, is agreement from the start. -/
theorem SameButSpCarry.trans_next {s u : State} {sp : Byte} {c c' : Bool} {r r' : Result} (hsp : u.sp = s.sp)
    (hc : c' = u.c ∨ (c' = c ∧ u.c = s.c)) (h : SameButSpCarry u sp c' r r') : SameButSpCarry s sp c r r' := by
  cases r with
  | next t =>
    obtain ⟨c'', hr, htsp, htc⟩ := h
    exact ⟨c'', hr, htsp.trans hsp, by grind⟩
  | fault f => exact h
  | refused q => exact h

theorem run_sameButSpCarry (n : Nat) (s : State) (sp : Byte) (c : Bool) :
    SameButSpCarry s sp c (run n s) (run n { s with sp := sp, c := c }) := by
  induction n generalizing s c with
  | zero => exact ⟨c, rfl, rfl, .inr ⟨rfl, rfl⟩⟩
  | succ n ih =>
    have hstep := step_sameButSpCarry s sp c
    cases hs : step s with
    | next u =>
      rw [hs] at hstep
      obtain ⟨c', hs', hsp, hc⟩ := hstep
      rw [run_succ_next hs, run_succ_next hs']
      exact (ih u c').trans_next hsp hc
    | fault f =>
      rw [hs] at hstep
      rw [run_succ_fault hs, run_succ_fault hstep]
      rfl
    | refused q =>
      rw [hs] at hstep
      rw [run_succ_refused hs, run_succ_refused hstep]
      rfl

/-- Settles O39: by induction on the number of steps, from what an instruction does not read. -/
theorem spAndCarryUnobservable : Obligations.SpAndCarryUnobservable := run_sameButSpCarry

/-! ### Every combination of flags is reachable (R32) -/

theorem execAll_of_no_store {is : List Instr} (h : ∀ i ∈ is, storeTarget i = none) (s : State) :
    execAll is s = .next (is.foldl (fun u i => effect i u) s) := by
  induction is generalizing s with
  | nil => rfl
  | cons i is ih =>
    rw [execAll, exec_of_not_store (h i List.mem_cons_self)]
    exact ih (fun j hj => h j (List.mem_cons_of_mem i hj)) (effect i s)

/-- Two bytes whose sum sets the flags as wanted: it passes 255 for C, and is 0 modulo 256 for Z. -/
def augendFor (c : Bool) : Byte := if c then 0xFF else 0x00
def addendFor (z c : Bool) : Byte := (if c then 1 else 0) + (if z then 0 else 1)

theorem aluAdd_augendFor_addendFor (z c : Bool) :
    (aluAdd (augendFor c) (addendFor z c)).zero = z ∧ (aluAdd (augendFor c) (addendFor z c)).carry = c := by
  revert z c
  decide

/-- Settles O40: an `ADD` of two bytes chosen for the flags, then the three loads, which write no flag. -/
theorem everyFlagCombinationReachable : Obligations.EveryFlagCombinationReachable := by
  intro s a x y z c
  obtain ⟨hz, hc⟩ := aluAdd_augendFor_addendFor z c
  exact ⟨[.lda (augendFor c), .add (addendFor z c), .lda a, .ldx x, .ldy y], _,
    execAll_of_no_store (by simp [storeTarget]) s, rfl, rfl, rfl, hz, hc⟩

/-! ### The host's register port (R8, R21) -/

@[simp] theorem transact_setReg (r : RegName) (raw : Int) (s : State) :
    transact (.setReg r raw) s = (s.presetReg r raw, .ok) := rfl

theorem State.getReg_presetReg_same (s : State) (r : RegName) (raw : Int) :
    ((s.presetReg r raw).getReg r : Int) = raw % (if r = .pc then 65536 else 256) := by
  cases r with
  | r8 r => simp [State.presetReg, State.reg_setReg, toNat_toReg8]
  | pc => simp [State.presetReg, toNat_toReg16]

/-- R33: the registers are independent. -/
theorem State.getReg_presetReg_of_ne (s : State) {q r : RegName} (h : q ≠ r) (raw : Int) :
    (s.presetReg r raw).getReg q = s.getReg q := by
  cases r with
  | r8 r =>
    cases q with
    | r8 q => simp [State.presetReg, State.reg_setReg, show q ≠ r by rintro rfl; exact h rfl]
    | pc => simp [State.presetReg]
  | pc =>
    cases q with
    | r8 q => cases q <;> rfl
    | pc => exact absurd rfl h

@[simp] theorem State.presetReg_getFlag (s : State) (r : RegName) (raw : Int) (f : FlagName) :
    (s.presetReg r raw).getFlag f = s.getFlag f := by
  cases r <;> cases f <;> simp [State.presetReg]

@[simp] theorem State.presetReg_mem (s : State) (r : RegName) (raw : Int) : (s.presetReg r raw).mem = s.mem := by
  cases r <;> simp [State.presetReg]

/-- Settles O50: the preset port writes one register cell, which reduces the integer. -/
theorem registerSetGetWraps : Obligations.RegisterSetGetWraps := by
  intro s r raw
  rw [transact_setReg]
  exact ⟨rfl, s.getReg_presetReg_same r raw, fun q hq => s.getReg_presetReg_of_ne hq raw,
    s.presetReg_getFlag r raw, s.presetReg_mem r raw⟩

/-! ### Reset (R40) -/

theorem State.resetWith_inv (memSize : Nat) (z c : Bool) : (State.resetWith memSize z c).Inv := Memory.empty_wf memSize

/-- Settles O46: no cell is listed after reset. -/
theorem resetIsCanonical : Obligations.ResetIsCanonical :=
  ⟨State.resetWith_inv _ _ _, State.resetWith_inv⟩

theorem memRead_empty {size : Nat} {a : Int} (h0 : 0 ≤ a) (h1 : a < size) : memRead ⟨size, []⟩ a = .ok 0x00 := by
  rcases memRead_cases ⟨size, []⟩ a with ⟨-, -, h⟩ | ⟨hout, -⟩
  · rw [h, Memory.empty_cell, Memory.unlisted]
  · simp only at hout
    omega

/-- Settles O47: the fields of the reset state, and a read of memory in which no cell is listed. -/
theorem resetValues : Obligations.ResetValues := fun _ _ _ =>
  ⟨rfl, rfl, rfl, rfl, rfl, rfl, fun _ => memRead_empty⟩

end Sys2Proof.Machine
end

section
/-! The memory of a step: the accesses its fetch makes (R58), the store from its bytes in memory (R130 to R132), the
host's `write_byte` (R52), and the canonical form of the cells, which a step keeps and in which memories that read alike
are equal (log entry 10). -/

namespace Sys2Proof.Machine

open Sys2Proof.Stmt

/-! ### A step keeps the canonical form -/

theorem effect_keeps_inv {i : Instr} {s : State} (hs : s.Inv)
    (hin : ∀ addr, storeTarget i = some addr → addr.toNat < s.mem.size) : (effect i s).Inv := by
  rcases effect_mem i s with ⟨-, hm⟩ | ⟨addr, v, ht, hm⟩ <;> rw [State.Inv, hm]
  · exact hs
  · exact Memory.setCell_wf hs (hin addr ht)

theorem exec_keeps_inv {i : Instr} {s t : State} (hs : s.Inv) (h : exec i s = .next t) : t.Inv := by
  rcases exec_cases i s with ⟨hin, he⟩ | ⟨_, -, -, he⟩ <;> rw [he] at h <;> cases h
  exact effect_keeps_inv hs hin

/-- A completed step is one completed instruction, the one fetched. -/
theorem exec_of_step {s t : State} (h : step s = .next t) : ∃ i, fetch s = .ok i ∧ exec i s = .next t := by
  cases hf : fetch s with
  | error f => rw [step_of_fetch_error hf] at h; cases h
  | ok i => exact ⟨i, rfl, step_of_fetch hf ▸ h⟩

theorem step_keeps_inv {s t : State} (hs : s.Inv) (h : step s = .next t) : t.Inv := by
  obtain ⟨i, -, hexec⟩ := exec_of_step h
  exact exec_keeps_inv hs hexec

/-- Settles O44: a completed step writes at most one cell, which exists. -/
theorem stepKeepsCanonicalMemory : Obligations.StepKeepsCanonicalMemory := fun _ _ => step_keeps_inv

/-! ### The canonical form is extensional -/

/-- In a list with rising addresses the lookup finds every entry. -/
theorem mem_iff_lookup_eq_some {cells : List Host.Cell} (h : cells.Pairwise fun c d => c.1 < d.1) (a : Nat) (v : Byte) :
    (a, v) ∈ cells ↔ cells.lookup a = some v := by
  rw [List.lookup_eq_some_iff]
  constructor
  · intro hmem
    obtain ⟨before, after, rfl⟩ := List.append_of_mem hmem
    obtain ⟨-, -, hlt⟩ := List.pairwise_append.mp h
    refine ⟨before, after, rfl, fun c hc => ?_⟩
    have := hlt c hc (a, v) List.mem_cons_self
    simpa using Nat.ne_of_gt this
  · rintro ⟨before, after, rfl, -⟩
    simp

/-- What a canonical memory lists is read off its cells: those that do not hold `Memory.unlisted`. -/
theorem Memory.mem_cells_iff {m : Memory} (h : m.wf) (a : Nat) (v : Byte) :
    (a, v) ∈ m.cells ↔ m.cell a = v ∧ v ≠ Memory.unlisted := by
  obtain ⟨hrising, hlisted⟩ := h
  have hlookup := mem_iff_lookup_eq_some hrising a
  constructor
  · intro hmem
    exact ⟨by rw [Memory.cell, (hlookup v).mp hmem, Option.getD_some], (hlisted _ hmem).1⟩
  · rintro ⟨rfl, hne⟩
    rw [hlookup]
    cases hl : m.cells.lookup a with
    | none => exact absurd (by rw [Memory.cell, hl, Option.getD_none]) hne
    | some u => rw [Memory.cell, hl, Option.getD_some]

/-- Two lists of cells with rising addresses and the same entries are equal. -/
theorem cells_eq_of_mem_iff {cs ds : List Host.Cell} (hcs : cs.Pairwise fun c d => c.1 < d.1)
    (hds : ds.Pairwise fun c d => c.1 < d.1) (h : ∀ c, c ∈ cs ↔ c ∈ ds) : cs = ds := by
  have : Std.Irrefl fun c d : Host.Cell => c.1 < d.1 := ⟨fun _ => Nat.lt_irrefl _⟩
  have : Std.Antisymm fun c d : Host.Cell => c.1 < d.1 := ⟨fun _ _ hcd hdc => absurd hcd (Nat.lt_asymm hdc)⟩
  exact hcs.eq_of_mem_iff hds h

/-- Settles O43: the cells say which entries are listed, and the rising addresses in which order. -/
theorem canonicalMemoryIsExtensional : Obligations.CanonicalMemoryIsExtensional := by
  intro m n hm hn hsize hcell
  have hcells : m.cells = n.cells := cells_eq_of_mem_iff hm.1 hn.1 fun ⟨a, v⟩ => by
    rw [Memory.mem_cells_iff hm, Memory.mem_cells_iff hn, hcell]
  cases m
  cases n
  cases hsize
  cases hcells
  rfl

/-! ### The host's `write_byte` -/

/-- Everything the host's `write_byte` can do (R6, R52, R187). -/
theorem transact_writeByte_cases (a v : Int) (s : State) :
    (0 ≤ a ∧ a < (s.mem.size : Int) ∧
      transact (.writeByte a v) s = ({ s with mem := s.mem.setCell a.toNat (toReg8 v) }, .ok)) ∨
    ((a < 0 ∨ (s.mem.size : Int) ≤ a) ∧ transact (.writeByte a v) s = (s, .fault (.outOfRange a))) := by
  rcases memWrite_cases s.mem a (toReg8 v) with ⟨hlo, hhi, hwrite⟩ | ⟨hout, hwrite⟩
  · exact .inl ⟨hlo, hhi, by simp [transact, hwrite]⟩
  · exact .inr ⟨hout, by simp [transact, hwrite]⟩

theorem transact_writeByte_of_lt {a : Nat} {s : State} (ha : a < s.mem.size) (v : Int) :
    transact (.writeByte a v) s = ({ s with mem := s.mem.setCell a (toReg8 v) }, .ok) := by
  rcases transact_writeByte_cases a v s with ⟨-, -, h⟩ | ⟨hout, -⟩
  · exact h
  · omega

theorem transact_writeByte_of_outside {a : Int} {s : State} (ha : a < 0 ∨ (s.mem.size : Int) ≤ a) (v : Int) :
    transact (.writeByte a v) s = (s, .fault (.outOfRange a)) := by
  rcases transact_writeByte_cases a v s with ⟨hlo, hhi, -⟩ | ⟨-, h⟩
  · omega
  · exact h

theorem transact_readByte_of_outside {a : Int} {s : State} (ha : a < 0 ∨ (s.mem.size : Int) ≤ a) :
    transact (.readByte a) s = (s, .fault (.outOfRange a)) := by
  rcases transact_readByte_cases a s with ⟨hlo, hhi, -⟩ | ⟨-, h⟩
  · omega
  · exact h

/-- Settles O41: an address in range is a natural number below the memory length, and the write is read back there. -/
theorem memoryReadWriteContract : Obligations.MemoryReadWriteContract := by
  refine fun s a v => ⟨fun hlo hhi => ?_, fun hout =>
    ⟨transact_writeByte_of_outside hout v, transact_readByte_of_outside hout⟩⟩
  obtain ⟨n, rfl⟩ := Int.eq_ofNat_of_zero_le hlo
  have hn : n < s.mem.size := by omega
  refine ⟨s.mem.setCell n (toReg8 v), transact_writeByte_of_lt hn v, rfl, fun b => ?_, ?_,
    transact_readByte_of_lt hn⟩
  · simp only [Memory.cell_setCell, Int.natCast_inj, toReg8]
  · rw [transact_readByte_of_lt (by exact hn), Memory.cell_setCell, if_pos rfl, toReg8]

/-! ### The opcode map and the fetch -/

theorem opcodeMap_eq_none_iff (b0 : Byte) : opcodeMap b0 = none ↔ b0 ∉ opcodes := by
  simp [opcodeMap, List.lookup_eq_none_iff, opcodeTable, opcodes]

theorem fetch_of_unimplemented {s : State} (h0 : s.has 0) (h : s.byteAt 0 ∉ opcodes) :
    fetch s = .error (.unimplementedOpcode (s.byteAt 0)) := by
  simp [fetch, fetchByte_ok h0, (opcodeMap_eq_none_iff _).mpr h]

/-- The fetch of a three-byte instruction whose bytes all lie in memory (R87, R105). -/
theorem fetch_of_abs {s : State} {mk : Word → Instr} (h2 : s.has 2) (h : opcodeMap (s.byteAt 0) = some (.abs mk)) :
    fetch s = .ok (mk s.wordAt) := by
  simp [fetch, absOperand, fetchByte_ok (State.has_of_le h2 (Nat.zero_le 2)),
    fetchByte_ok (State.has_of_le h2 (Nat.le_succ 1)), fetchByte_ok h2, h, wordOfBytes_eq_append, State.wordAt]

/-! ### A store from its bytes in memory -/

/-- The stores of R89 with the register each stores (R130 to R132). -/
def storeRows : List (Byte × Reg8) := [(0x8D, .a), (0x8E, .x), (0x8C, .y)]

theorem exists_abs_of_mem_storeRows {b0 : Byte} {r : Reg8} (h : (b0, r) ∈ storeRows) :
    ∃ mk, opcodeMap b0 = some (.abs mk) ∧ ∀ addr s, exec (mk addr) s = storeAbsolute r addr s := by
  simp only [storeRows, List.mem_cons, Prod.mk.injEq, List.not_mem_nil, or_false] at h
  obtain ⟨rfl, rfl⟩ | ⟨rfl, rfl⟩ | ⟨rfl, rfl⟩ := h
  · exact ⟨.sta, rfl, fun _ _ => rfl⟩
  · exact ⟨.stx, rfl, fun _ _ => rfl⟩
  · exact ⟨.sty, rfl, fun _ _ => rfl⟩

/-- The state a store to `addr` leaves: its one cell and PC (R130 to R132). -/
def State.stored (s : State) (r : Reg8) (addr : Word) : State :=
  { s with mem := s.mem.setCell addr.toNat (s.reg r), pc := s.pc + 3 }

theorem step_of_mem_storeRows {s : State} {b0 : Byte} {r : Reg8} (hrow : (b0, r) ∈ storeRows) (h2 : s.has 2)
    (hb : s.byteAt 0 = b0) (hin : s.wordAt.toNat < s.mem.size) : step s = .next (s.stored r s.wordAt) := by
  obtain ⟨mk, hmap, hexec⟩ := exists_abs_of_mem_storeRows hrow
  rw [step_of_fetch (fetch_of_abs h2 (hb ▸ hmap)), hexec]
  rcases storeAbsolute_cases r s.wordAt s with ⟨-, h⟩ | ⟨hout, -⟩
  · exact h
  · omega

@[simp] theorem State.stored_cell_same (s : State) (r : Reg8) (addr : Word) :
    (s.stored r addr).mem.cell addr.toNat = s.reg r := by
  rw [State.stored, Memory.cell_setCell, if_pos rfl]

/-- Settles O24: the stored cell exists and is byte `k` at the new PC. -/
theorem storedByteIsFetchedNext : Obligations.StoredByteIsFetchedNext := by
  intro s b0 r k hrow h2 hb hin hk
  have hbyte : (s.stored r s.wordAt).byteAt k = s.reg r :=
    (congrArg _ hk).trans (s.stored_cell_same r s.wordAt)
  have hhas : (s.stored r s.wordAt).has k = true := (State.has_iff _ _).mpr (hk ▸ hin)
  refine ⟨_, step_of_mem_storeRows hrow h2 hb hin, hbyte, hbyte ▸ fetchByte_ok hhas, ?_⟩
  rintro rfl hun
  rw [← hbyte] at hun ⊢
  exact step_of_fetch_error (fetch_of_unimplemented hhas hun)

theorem transact_step_of_next {s t : State} (h : step s = .next t) : transact .step s = (t, .ok) := by
  rw [transact, h]

/-- Settles O42: both accesses go to the one cell that was written. -/
theorem hostAccessesTakeEffectAtOnce : Obligations.HostAccessesTakeEffectAtOnce := by
  refine ⟨fun s k v hk => ?_, fun s b0 r hrow h2 hb hin => ?_⟩
  · have hwrite := transact_writeByte_of_lt ((s.has_iff k).mp hk) v
    rw [Nat.cast_add] at hwrite
    rw [hwrite, fetchByte_ok (by exact hk), State.byteAt, Memory.cell_setCell, if_pos rfl, toReg8]
  · rw [transact_step_of_next (step_of_mem_storeRows hrow h2 hb hin), transact_readByte_of_lt (by exact hin),
      State.stored_cell_same]

/-! ### The accesses of a step -/

/-- The reads of the first `n` bytes of the instruction at PC, at addresses that are not wrapped (R58, D4). -/
def State.reads (s : State) (n : Nat) : List Access := (List.range n).map fun k : Nat => .read ((s.pc.toNat : Int) + k)

theorem State.reads_succ (s : State) (n : Nat) : s.reads (n + 1) = s.reads n ++ [.read ((s.pc.toNat : Int) + n)] := by
  simp [State.reads, List.range_succ]

theorem Memory.inRange_natCast (m : Memory) (a : Nat) : m.inRange a = decide (a < m.size) := by
  simp [Memory.inRange]

theorem State.inRange_pc_add (s : State) (k : Nat) : s.mem.inRange ((s.pc.toNat : Int) + k) = s.has k :=
  Memory.inRange_natCast s.mem (s.pc.toNat + k)

theorem State.has_of_lt_succ {s : State} {k : Nat} (h : s.has k = true) : ∀ j < k + 1, s.has j = true :=
  fun _ hj => State.has_of_le h (Nat.le_of_lt_succ hj)

theorem State.inRange_of_mem_reads {s : State} {n : Nat} (h : ∀ k < n, s.has k = true) :
    ∀ acc ∈ s.reads n, s.mem.inRange acc.addr = true := by
  intro acc hacc
  obtain ⟨k, hk, rfl⟩ := List.mem_map.mp hacc
  exact (s.inRange_pc_add k).trans (h k (List.mem_range.mp hk))

/-- Of the opcode map only absolute rows are stores (R89). -/
theorem storeTarget_of_opcodeMap_imp {b0 : Byte} {i : Instr} (h : opcodeMap b0 = some (.imp i)) :
    storeTarget i = none := by
  obtain ⟨-, rfl⟩ | ⟨-, rfl⟩ | ⟨-, rfl⟩ | ⟨-, rfl⟩ | ⟨-, rfl⟩ := by simpa using opcodeMap_cases h
  all_goals rfl

theorem storeTarget_of_opcodeMap_byte {b0 : Byte} {mk : Byte → Instr}
    (h : opcodeMap b0 = some (.imm mk) ∨ opcodeMap b0 = some (.rel mk)) (b1 : Byte) : storeTarget (mk b1) = none := by
  rcases h with h | h
  · obtain ⟨-, rfl⟩ | ⟨-, rfl⟩ | ⟨-, rfl⟩ | ⟨-, rfl⟩ := by simpa using opcodeMap_cases h
    all_goals rfl
  · obtain ⟨-, rfl⟩ | ⟨-, rfl⟩ := by simpa using opcodeMap_cases h
    all_goals rfl

theorem mem_storeAccesses_iff (acc : Access) (i : Instr) :
    acc ∈ storeAccesses i ↔ ∃ addr, storeTarget i = some addr ∧ acc = .write (addr.toNat : Int) := by
  cases h : storeTarget i <;> simp [storeAccesses, h]

theorem storeAccesses_of_not_store {i : Instr} (h : storeTarget i = none) : storeAccesses i = [] := by
  rw [storeAccesses, h]

/-- The three ends of a fetch, with the accesses of the step it makes: byte `k` is the first that is not there; or the
opcode is unimplemented; or every byte is there, and only a store's write follows (R58, R101 to R107). -/
theorem fetch_accesses_cases (s : State) :
    (∃ k : Nat, (∀ j < k, s.has j = true) ∧ s.has k = false ∧
      fetch s = .error (.outOfRange ((s.pc.toNat : Int) + k)) ∧ accesses s = s.reads (k + 1)) ∨
    (s.has 0 = true ∧ fetch s = .error (.unimplementedOpcode (s.byteAt 0)) ∧ accesses s = s.reads 1) ∨
    ∃ (i : Instr) (k : Nat), s.has k = true ∧ fetch s = .ok i ∧
      accesses s = s.reads (k + 1) ++ storeAccesses i := by
  rcases fetchByte_cases s 0 with ⟨h0, f0⟩ | ⟨h0, f0⟩
  · cases hmap : opcodeMap (s.byteAt 0) with
    | none => exact .inr (.inl ⟨h0, by simp [fetch, f0, hmap], by simp [accesses, f0, hmap, State.reads]⟩)
    | some e =>
      cases e with
      | imp i =>
        have hst := storeAccesses_of_not_store (storeTarget_of_opcodeMap_imp hmap)
        exact .inr (.inr ⟨i, 0, h0, by simp [fetch, f0, hmap],
          by simp [accesses, f0, hmap, State.reads, hst]⟩)
      | imm mk | rel mk =>
        have hst (b1 : Byte) : storeAccesses (mk b1) = [] :=
          storeAccesses_of_not_store (storeTarget_of_opcodeMap_byte (b0 := s.byteAt 0) (by simp [hmap]) b1)
        have hacc : accesses s = s.reads 2 := by simp [accesses, f0, hmap, State.reads, List.range_succ]
        rcases fetchByte_cases s 1 with ⟨h1, f1⟩ | ⟨h1, f1⟩
        · exact .inr (.inr ⟨mk (s.byteAt 1), 1, h1,
            by simp [fetch, f0, hmap, immOperand, relOperand, f1], by rw [hacc, hst, List.append_nil]⟩)
        · exact .inl ⟨1, State.has_of_lt_succ h0, h1,
            by simp [fetch, f0, hmap, immOperand, relOperand, f1], hacc⟩
      | abs mk =>
        rcases fetchByte_cases s 1 with ⟨h1, f1⟩ | ⟨h1, f1⟩
        · rcases fetchByte_cases s 2 with ⟨h2, f2⟩ | ⟨h2, f2⟩
          · exact .inr (.inr ⟨mk s.wordAt, 2, h2, fetch_of_abs h2 hmap,
              by simp [accesses, f0, hmap, f1, f2, wordOfBytes_eq_append, State.wordAt, State.reads,
                List.range_succ]⟩)
          · exact .inl ⟨2, State.has_of_lt_succ h1, h2,
              by simp [fetch, f0, hmap, absOperand, f1, f2],
              by simp [accesses, f0, hmap, f1, f2, State.reads, List.range_succ]⟩
        · exact .inl ⟨1, State.has_of_lt_succ h0, h1,
            by simp [fetch, f0, hmap, absOperand, f1], by simp [accesses, f0, hmap, f1, State.reads, List.range_succ]⟩
  · exact .inl ⟨0, nofun, h0, by simp [fetch, f0], by simp [accesses, f0, State.reads]⟩

/-- The answer `r` is `OutOfRange(a)` exactly when the last of the accesses `as` is at an `a` outside memory, and those
before it are in range. -/
def RaisedByLast (m : Memory) (as : List Access) (r : Result) : Prop :=
  (∀ a : Int, r = .fault (.outOfRange a) ↔
    ∃ last : Access, as.getLast? = some last ∧ last.addr = a ∧ m.inRange a = false) ∧
  ∀ before : Access, before ∈ as.dropLast → m.inRange before.addr = true

theorem raisedByLast_of_outside {m : Memory} {as : List Access} {last : Access}
    (hin : ∀ acc ∈ as, m.inRange acc.addr = true) (hlast : m.inRange last.addr = false) :
    RaisedByLast m (as ++ [last]) (.fault (.outOfRange last.addr)) := by
  refine ⟨fun a => ?_, by simpa using hin⟩
  simp only [Host.Outcome.fault.injEq, Fault.outOfRange.injEq, List.getLast?_concat, Option.some.injEq, exists_eq_left']
  exact ⟨fun ha => ⟨ha, ha ▸ hlast⟩, And.left⟩

theorem raisedByLast_of_inside {m : Memory} {as : List Access} {r : Result}
    (hin : ∀ acc ∈ as, m.inRange acc.addr = true) (hr : ∀ a, r ≠ .fault (.outOfRange a)) :
    RaisedByLast m as r := by
  refine ⟨fun a => iff_of_false (hr a) ?_, fun before hb => hin before (List.mem_of_mem_dropLast hb)⟩
  rintro ⟨last, hlast, rfl, hout⟩
  simp [hin last (List.mem_of_getLast? hlast)] at hout

theorem exec_raisedByLast {s : State} {as : List Access} (hin : ∀ acc ∈ as, s.mem.inRange acc.addr = true)
    (i : Instr) : RaisedByLast s.mem (as ++ storeAccesses i) (exec i s) := by
  rcases exec_cases i s with ⟨htarget, he⟩ | ⟨addr, ht, hout, he⟩ <;> rw [he]
  · refine raisedByLast_of_inside (fun acc hacc => ?_) nofun
    rcases List.mem_append.mp hacc with hacc | hacc
    · exact hin acc hacc
    · obtain ⟨addr, ht, rfl⟩ := (mem_storeAccesses_iff acc i).mp hacc
      exact (Memory.inRange_natCast s.mem addr.toNat).trans (decide_eq_true (htarget addr ht))
  · rw [storeAccesses, ht]
    exact raisedByLast_of_outside (last := .write addr.toNat) hin
      ((Memory.inRange_natCast s.mem addr.toNat).trans (decide_eq_false (Nat.not_lt.mpr hout)))

theorem step_raisedByLast (s : State) : RaisedByLast s.mem (accesses s) (step s) := by
  obtain ⟨k, hbefore, hk, hf, hacc⟩ | ⟨h0, hf, hacc⟩ | ⟨i, k, hk, hf, hacc⟩ := fetch_accesses_cases s
  · rw [hacc, step_of_fetch_error hf, State.reads_succ]
    exact raisedByLast_of_outside (last := .read (s.pc.toNat + k)) (State.inRange_of_mem_reads hbefore)
      ((s.inRange_pc_add k).trans hk)
  · rw [hacc, step_of_fetch_error hf]
    exact raisedByLast_of_inside (State.inRange_of_mem_reads (State.has_of_lt_succ h0)) nofun
  · rw [hacc, step_of_fetch hf]
    exact exec_raisedByLast (State.inRange_of_mem_reads (State.has_of_lt_succ hk)) i

/-- Settles O13: the fetch reads up to the first byte that is not there, and a store's write comes after every read. -/
theorem faultIsTheLastAccess : Obligations.FaultIsTheLastAccess := step_raisedByLast

end Sys2Proof.Machine
end

section
/-! The encoding of R80 to R92: what each form of an opcode row decodes to and is encoded as, the lengths, and the
branch offset from the assembler's operand to the target. -/

namespace Sys2Proof.Machine

open Sys2Proof.Stmt

/-! ### Decoding, by the form of the opcode's row (R81 to R84, R89) -/

theorem decode_of_imp {b0 : Byte} {i : Instr} (h : opcodeMap b0 = some (.imp i)) (rest : List Byte) :
    decode (b0 :: rest) = .ok (i, rest) := by simp [decode, h]

theorem decode_of_byte {b0 : Byte} {mk : Byte → Instr}
    (h : opcodeMap b0 = some (.imm mk) ∨ opcodeMap b0 = some (.rel mk)) (b1 : Byte) (rest : List Byte) :
    decode (b0 :: b1 :: rest) = .ok (mk b1, rest) := by
  rcases h with h | h <;> simp [decode, h]

theorem decode_of_abs {b0 : Byte} {mk : Word → Instr} (h : opcodeMap b0 = some (.abs mk)) (b1 b2 : Byte)
    (rest : List Byte) : decode (b0 :: b1 :: b2 :: rest) = .ok (mk (b2 ++ b1), rest) := by
  simp [decode, h, wordOfBytes_eq_append]

theorem decode_of_unimplemented {b0 : Byte} (h : b0 ∉ opcodes) (rest : List Byte) :
    decode (b0 :: rest) = .error (.unimplementedOpcode b0) := by
  simp [decode, (opcodeMap_eq_none_iff b0).mpr h]

/-- Everything bytes that decode can be: the opcode byte of a row, the operand bytes its form has, and the rest. -/
theorem decode_ok_cases {bytes rest : List Byte} {i : Instr} (h : decode bytes = .ok (i, rest)) :
    ∃ b0 : Byte,
      (opcodeMap b0 = some (.imp i) ∧ bytes = b0 :: rest) ∨
      (∃ mk b1, (opcodeMap b0 = some (.imm mk) ∨ opcodeMap b0 = some (.rel mk)) ∧ i = mk b1 ∧
        bytes = b0 :: b1 :: rest) ∨
      ∃ mk b1 b2, opcodeMap b0 = some (.abs mk) ∧ i = mk (b2 ++ b1) ∧ bytes = b0 :: b1 :: b2 :: rest := by
  obtain _ | ⟨b0, tail⟩ := bytes
  · cases h
  refine ⟨b0, ?_⟩
  cases hmap : opcodeMap b0 with
  | none => simp [decode, hmap] at h
  | some e =>
    cases e with
    | imp j =>
      rw [decode_of_imp hmap] at h
      cases h
      exact .inl ⟨rfl, rfl⟩
    | imm mk | rel mk =>
      obtain _ | ⟨b1, after⟩ := tail
      · simp [decode, hmap] at h
      · have hrow : opcodeMap b0 = some (.imm mk) ∨ opcodeMap b0 = some (.rel mk) := by simp [hmap]
        rw [decode_of_byte hrow] at h
        cases h
        exact .inr (.inl ⟨mk, b1, by simp, rfl, rfl⟩)
    | abs mk =>
      obtain _ | ⟨b1, _ | ⟨b2, after⟩⟩ := tail
      · simp [decode, hmap] at h
      · simp [decode, hmap] at h
      · rw [decode_of_abs hmap] at h
        cases h
        exact .inr (.inr ⟨mk, b1, b2, rfl, rfl, rfl⟩)

/-- A 16-bit operand is put together again from the two bytes it was cut into (R83, R87). -/
theorem decode_loByte_hiByte {b0 : Byte} {mk : Word → Instr} (h : opcodeMap b0 = some (.abs mk)) (addr : Word)
    (rest : List Byte) : decode (b0 :: loByte addr :: hiByte addr :: rest) = .ok (mk addr, rest) := by
  rw [decode_of_abs h, ← wordOfBytes_eq_append, wordOfBytes_loByte_hiByte]

/-- Settles O3: each instruction's row gives it back from its operand bytes. -/
theorem decodeOfEncode : Obligations.DecodeOfEncode := by
  intro i rest
  cases i with
  | tax | tay | txa | tya | nop => exact decode_of_imp rfl rest
  | lda b1 | ldx b1 | ldy b1 | add b1 => exact decode_of_byte (.inl rfl) b1 rest
  | bne b1 | beq b1 => exact decode_of_byte (.inr rfl) b1 rest
  | sta addr | stx addr | sty addr | jmp addr => exact decode_loByte_hiByte rfl addr rest

/-! ### Encoding, by the form of the opcode's row -/

theorem loByte_append (hi lo : Byte) : loByte (hi ++ lo) = lo := BitVec.extractLsb'_append_eq_right

theorem hiByte_append (hi lo : Byte) : hiByte (hi ++ lo) = hi := BitVec.extractLsb'_append_eq_left

theorem encode_of_imp {b0 : Byte} {i : Instr} (h : opcodeMap b0 = some (.imp i)) : encode i = [b0] := by
  obtain ⟨rfl, rfl⟩ | ⟨rfl, rfl⟩ | ⟨rfl, rfl⟩ | ⟨rfl, rfl⟩ | ⟨rfl, rfl⟩ := by simpa using opcodeMap_cases h
  all_goals rfl

theorem encode_of_byte {b0 : Byte} {mk : Byte → Instr}
    (h : opcodeMap b0 = some (.imm mk) ∨ opcodeMap b0 = some (.rel mk)) (b1 : Byte) : encode (mk b1) = [b0, b1] := by
  rcases h with h | h
  · obtain ⟨rfl, rfl⟩ | ⟨rfl, rfl⟩ | ⟨rfl, rfl⟩ | ⟨rfl, rfl⟩ := by simpa using opcodeMap_cases h
    all_goals rfl
  · obtain ⟨rfl, rfl⟩ | ⟨rfl, rfl⟩ := by simpa using opcodeMap_cases h
    all_goals rfl

theorem encode_of_abs {b0 : Byte} {mk : Word → Instr} (h : opcodeMap b0 = some (.abs mk)) (b1 b2 : Byte) :
    encode (mk (b2 ++ b1)) = [b0, b1, b2] := by
  obtain ⟨rfl, rfl⟩ | ⟨rfl, rfl⟩ | ⟨rfl, rfl⟩ | ⟨rfl, rfl⟩ := by simpa using opcodeMap_cases h
  all_goals simp [encode, loByte_append, hiByte_append]

/-- Settles O4: the row the bytes were decoded by is the one row of the instruction's mnemonic. -/
theorem decodedBytesAreTheEncoding : Obligations.DecodedBytesAreTheEncoding := by
  intro bytes i rest h
  obtain ⟨b0, ⟨hmap, rfl⟩ | ⟨mk, b1, hmap, rfl, rfl⟩ | ⟨mk, b1, b2, hmap, rfl, rfl⟩⟩ := decode_ok_cases h
  · rw [encode_of_imp hmap]; rfl
  · rw [encode_of_byte hmap]; rfl
  · rw [encode_of_abs hmap]; rfl

/-! ### The branch offset (R88, R92, R106, R162, R163) -/

theorem exec_bne_of_z {s : State} {z : Bool} (hz : s.z = z) (offset : Byte) :
    exec (.bne offset) s = branchIf (!z) offset s := by subst hz; rfl

theorem exec_beq_of_z {s : State} {z : Bool} (hz : s.z = z) (offset : Byte) :
    exec (.beq offset) s = branchIf z offset s := by subst hz; rfl

theorem branchIf_true (offset : Byte) (s : State) :
    branchIf true offset s = .next { s with pc := BitVec.ofInt 16 (branchTarget s.pc offset) } := rfl

theorem branchIf_false (offset : Byte) (s : State) : branchIf false offset s = .next { s with pc := s.pc + 2 } :=
  branchIf_next false offset s

theorem asmOffset_isSome_iff (here target : Int) :
    (asmOffset here target).isSome = true ↔ here - 126 ≤ target ∧ target ≤ here + 129 := by
  rw [asmOffset, Option.isSome_ite]
  omega

/-- Every signed 8-bit number is read back from its byte (R88). -/
theorem s8_ofInt {d : Int} (hlo : -128 ≤ d) (hhi : d ≤ 127) : s8 (BitVec.ofInt 8 d) = d := by
  rw [s8_eq_toInt, BitVec.toInt_ofInt]
  exact Int.bmod_eq_of_le (by omega) (by omega)

/-- The offset byte the assembler gives leads to its target exactly, before any reduction (R92, R106). -/
theorem branchTarget_of_asmOffset {pc : Word} {target : Int} {offset : Byte}
    (h : asmOffset pc.toNat target = some offset) : branchTarget pc offset = target := by
  obtain ⟨⟨hlo, hhi⟩, ho⟩ := Option.ite_none_right_eq_some.mp h
  cases ho
  rw [branchTarget, s8_ofInt hlo hhi]
  omega

/-- Settles O8: a taken branch writes its target, which is the integer the offset was assembled from. -/
theorem assembledBranchReachesTarget : Obligations.AssembledBranchReachesTarget := by
  refine ⟨asmOffset_isSome_iff, fun s target offset h => ?_⟩
  have taken := branchIf_true offset s
  rw [branchTarget_of_asmOffset h] at taken
  exact ⟨fun hz => (exec_bne_of_z hz offset).trans taken, fun hz => (exec_beq_of_z hz offset).trans taken⟩

theorem s8_bounds (b : Byte) : -128 ≤ s8 b ∧ s8 b ≤ 127 := by
  have := b.isLt
  rw [s8]
  split <;> omega

/-- Settles O31: the offset is `s8` of the byte, and Z decides between the target and the next instruction. -/
theorem branchResult : Obligations.BranchResult := by
  intro offset s
  obtain ⟨hlo, hhi⟩ := s8_bounds offset
  have taken := branchIf_true offset s
  have fallsThrough := branchIf_false offset s
  refine ⟨s8 offset, fun h => if_pos h, fun h => if_neg (Nat.not_lt.mpr h), hlo, hhi, fun hz => ?_, fun hz => ?_⟩
  · exact ⟨(exec_bne_of_z hz offset).trans taken, (exec_beq_of_z hz offset).trans fallsThrough⟩
  · exact ⟨(exec_bne_of_z hz offset).trans fallsThrough, (exec_beq_of_z hz offset).trans taken⟩

/-! ### The opcode table -/

/-- Settles O1: each word of the table is three bytes, which the decoder reads. -/
theorem specWordsDecode : Obligations.SpecWordsDecode := ⟨rfl, rfl, rfl, rfl, rfl, rfl, rfl, rfl⟩

/-- Settles O2: each opcode byte decodes by the form of its row, and a byte without a row is rejected. -/
theorem opcodeMapIsTheTable : Obligations.OpcodeMapIsTheTable :=
  ⟨fun b1 b2 rest =>
    ⟨decode_of_byte (.inl rfl) b1 rest, decode_of_byte (.inl rfl) b1 rest, decode_of_byte (.inl rfl) b1 rest,
      decode_of_abs rfl b1 b2 rest, decode_of_abs rfl b1 b2 rest, decode_of_abs rfl b1 b2 rest,
      decode_of_imp rfl rest, decode_of_imp rfl rest, decode_of_imp rfl rest, decode_of_imp rfl rest,
      decode_of_byte (.inl rfl) b1 rest, decode_of_abs rfl b1 b2 rest, decode_of_imp rfl rest,
      decode_of_byte (.inr rfl) b1 rest, decode_of_byte (.inr rfl) b1 rest⟩,
    fun _ rest h => decode_of_unimplemented h rest⟩

/-! ### Lengths (R91) -/

theorem instrLength_eq_none_iff (b0 : Byte) : instrLength b0 = none ↔ b0 ∉ opcodes := by
  rw [instrLength, Option.map_eq_none_iff, opcodeMap_eq_none_iff]

/-- The three lists of R91 are the 15 opcodes of R89, sorted by length. -/
theorem instrLength_of_mem_opcodes : ∀ b0 ∈ opcodes,
    (instrLength b0 = some 1 ↔ b0 ∈ opcodes1) ∧ (instrLength b0 = some 2 ↔ b0 ∈ opcodes2) ∧
    (instrLength b0 = some 3 ↔ b0 ∈ opcodes3) := by decide

theorem opcodesByLength_subset : opcodes1 ⊆ opcodes ∧ opcodes2 ⊆ opcodes ∧ opcodes3 ⊆ opcodes := by decide

theorem instrLength_iff (b0 : Byte) :
    (instrLength b0 = some 1 ↔ b0 ∈ opcodes1) ∧ (instrLength b0 = some 2 ↔ b0 ∈ opcodes2) ∧
    (instrLength b0 = some 3 ↔ b0 ∈ opcodes3) := by
  by_cases h : b0 ∈ opcodes
  · exact instrLength_of_mem_opcodes b0 h
  · obtain ⟨h1, h2, h3⟩ := opcodesByLength_subset
    rw [(instrLength_eq_none_iff b0).mpr h]
    exact ⟨iff_of_false nofun fun hm => h (h1 hm), iff_of_false nofun fun hm => h (h2 hm),
      iff_of_false nofun fun hm => h (h3 hm)⟩

theorem encodedLength (i : Instr) : Laws.EncodedLength.Statement i :=
  match i with
  | .lda value => Laws.EncodedLength.lda value
  | .ldx value => Laws.EncodedLength.ldx value
  | .ldy value => Laws.EncodedLength.ldy value
  | .sta addr => Laws.EncodedLength.sta addr
  | .stx addr => Laws.EncodedLength.stx addr
  | .sty addr => Laws.EncodedLength.sty addr
  | .tax => Laws.EncodedLength.tax
  | .tay => Laws.EncodedLength.tay
  | .txa => Laws.EncodedLength.txa
  | .tya => Laws.EncodedLength.tya
  | .add value => Laws.EncodedLength.add value
  | .jmp addr => Laws.EncodedLength.jmp addr
  | .nop => Laws.EncodedLength.nop
  | .bne offset => Laws.EncodedLength.bne offset
  | .beq offset => Laws.EncodedLength.beq offset

theorem step_of_unimplemented {s : State} (h0 : s.has 0) (h : s.byteAt 0 ∉ opcodes) :
    step s = .fault (.unimplementedOpcode (s.byteAt 0)) :=
  step_of_fetch_error (fetch_of_unimplemented h0 h)

theorem accesses_of_unimplemented {s : State} (h0 : s.has 0) (h : s.byteAt 0 ∉ opcodes) :
    accesses s = [.read s.pc.toNat] := by
  simp [accesses, fetchByte_ok h0, (opcodeMap_eq_none_iff _).mpr h]

/-- Settles O5: an opcode byte without a length is one without a row, at which the step ends. -/
theorem lengthFromOpcodeByte : Obligations.LengthFromOpcodeByte := by
  refine ⟨fun b0 => ?_, fun i => ?_, fun s h0 hlen => ?_⟩
  · obtain ⟨h1, h2, h3⟩ := instrLength_iff b0
    exact ⟨h1, h2, h3, instrLength_eq_none_iff b0⟩
  · obtain ⟨b0, operands, henc, hlen⟩ := encodedLength i
    exact ⟨b0, by rw [henc]; rfl, by rw [henc]; exact hlen⟩
  · have hun := (instrLength_eq_none_iff _).mp hlen
    exact ⟨step_of_unimplemented h0 hun, accesses_of_unimplemented h0 hun⟩

/-! ### Unimplemented opcodes (R90) -/

theorem exists_decode_of_mem_opcodes {b0 : Byte} (h : b0 ∈ opcodes) (b1 b2 : Byte) :
    ∃ i rest, decode [b0, b1, b2] = .ok (i, rest) := by
  cases hmap : opcodeMap b0 with
  | none => exact absurd h ((opcodeMap_eq_none_iff b0).mp hmap)
  | some e =>
    cases e with
    | imp i => exact ⟨i, _, decode_of_imp hmap _⟩
    | imm mk => exact ⟨mk b1, _, decode_of_byte (.inl hmap) b1 _⟩
    | rel mk => exact ⟨mk b1, _, decode_of_byte (.inr hmap) b1 _⟩
    | abs mk => exact ⟨mk (b2 ++ b1), _, decode_of_abs hmap b1 b2 _⟩

theorem opcodeMap_isSome_iff (b0 : Byte) : (opcodeMap b0).isSome ↔ b0 ∈ opcodes := by
  rw [Option.isSome_iff_ne_none, ne_eq, opcodeMap_eq_none_iff, not_not]

theorem implementedNumbers_perm :
    ((List.range 256).filter fun n => (opcodeMap (BitVec.ofNat 8 n)).isSome).Perm (opcodes.map BitVec.toNat) := by
  refine (List.perm_ext_iff_of_nodup (List.nodup_range.filter _) (by decide)).mpr fun n => ?_
  simp only [List.mem_filter, List.mem_range, opcodeMap_isSome_iff, List.mem_map]
  constructor
  · exact fun ⟨hlt, hmem⟩ => ⟨_, hmem, Nat.mod_eq_of_lt hlt⟩
  · rintro ⟨b0, hmem, rfl⟩
    exact ⟨b0.isLt, by rwa [BitVec.ofNat_toNat, BitVec.setWidth_eq]⟩

theorem length_unimplementedNumbers :
    ((List.range 256).filter fun n => (opcodeMap (BitVec.ofNat 8 n)).isNone).length = 241 := by
  have hsplit := List.length_eq_length_filter_add (l := List.range 256) fun n => (opcodeMap (BitVec.ofNat 8 n)).isSome
  simp only [Option.not_isSome, implementedNumbers_perm.length_eq, List.length_map, List.length_range] at hsplit
  have hrows : opcodes.length = 15 := rfl
  omega

/-- Settles O6: 256 bytes less the 15 rows are left, each faults, and every row takes any operand bytes. -/
theorem unimplementedOpcodesFault : Obligations.UnimplementedOpcodesFault :=
  ⟨length_unimplementedNumbers, fun b0 => by rw [Option.isNone_iff_eq_none, opcodeMap_eq_none_iff],
    fun _ => step_of_unimplemented, fun _ b1 b2 h => exists_decode_of_mem_opcodes h b1 b2⟩

end Sys2Proof.Machine
end

section
/-! Fetching at PC (R100 to R107): byte by byte it reads what the decoder reads from the bytes at PC, so a step is the
meaning of the instruction they decode to or encode, and a table word placed at PC is what runs. A step that faults
leaves the machine where it was (R109). -/

namespace Sys2Proof.Machine

/-! ### The bytes at PC -/

theorem takeWhile_lt_range' (m a n : Nat) :
    (List.range' a n).takeWhile (fun k => decide (k < m)) = List.range' a (min n (m - a)) := by
  induction n generalizing a with
  | zero => simp
  | succ n ih =>
    rw [List.range'_succ]
    by_cases h : a < m
    · have hlen : min (n + 1) (m - a) = min n (m - (a + 1)) + 1 := by omega
      rw [List.takeWhile_cons_of_pos (by simpa using h), ih, hlen, List.range'_succ]
    · have hlen : min (n + 1) (m - a) = 0 := by omega
      rw [List.takeWhile_cons_of_neg (by simpa using h), hlen, List.range'_zero]

/-- Memory has no gaps: the window is the cells from PC up to the third or to the end of memory. -/
theorem State.codeWindow_eq (s : State) :
    s.codeWindow = (List.range' s.pc.toNat (min 3 (s.mem.size - s.pc.toNat))).map s.mem.cell := by
  rw [← takeWhile_lt_range']
  rfl

theorem State.codeWindow_getElem? (s : State) {k : Nat} (hk : k < 3) :
    s.codeWindow[k]? = if s.has k then some (s.byteAt k) else none := by
  rw [State.codeWindow_eq, List.getElem?_map]
  split
  · have hin := (s.has_iff k).mp ‹_›
    rw [List.getElem?_range' (by omega), Nat.one_mul]
    rfl
  · have hout := (s.has_iff k).not.mp ‹_›
    rw [List.getElem?_eq_none (by rw [List.length_range']; omega)]
    rfl

/-- Bytes that lie in memory from PC up are the head of the window. -/
theorem State.prefix_codeWindow {s : State} {bytes : List Byte} (hlen : bytes.length ≤ 3)
    (h : ∀ k < bytes.length, s.has k = true ∧ bytes[k]? = some (s.byteAt k)) : bytes <+: s.codeWindow := by
  refine List.prefix_iff_getElem?.mpr fun k hk => ?_
  obtain ⟨hhas, hbyte⟩ := h k hk
  rw [State.codeWindow_getElem? s (by omega), if_pos hhas, ← hbyte, List.getElem?_eq_getElem hk]

/-! ### Fetching refines decoding -/

/-- The fault of a rejection at PC (R101, R102, R103): the opcode byte, or the unwrapped address of the missing byte. -/
def State.rejectFault (s : State) : Reject → Fault
  | .unimplementedOpcode b0 => .unimplementedOpcode b0
  | .missingByte k => .outOfRange ((s.pc.toNat : Int) + k)

theorem fetchByte_eq_codeWindow (s : State) {k : Nat} (hk : k < 3) :
    fetchByte s k = s.codeWindow[k]?.elim (.error (s.rejectFault (.missingByte k))) .ok := by
  rw [State.codeWindow_getElem? s hk]
  rcases fetchByte_cases s k with ⟨h, -⟩ | ⟨h, -⟩ <;> simp [h, State.rejectFault]

/-- Where fetching byte by byte yields the bytes of a list, it yields what the list decodes to: the opcode's form asks
both for the same bytes in the same order (R103, R177). -/
theorem fetch_eq_decode {s : State} {bytes : List Byte}
    (h : ∀ k < 3, fetchByte s k = bytes[k]?.elim (.error (s.rejectFault (.missingByte k))) .ok) :
    fetch s = ((decode bytes).map Prod.fst).mapError s.rejectFault := by
  have h0 := h 0 (by omega)
  have h1 := h 1 (by omega)
  have h2 := h 2 (by omega)
  obtain _ | ⟨b0, rest⟩ := bytes
  · simp [fetch, h0, decode, Except.map, Except.mapError]
  cases hmap : opcodeMap b0 with
  | none => simp [fetch, h0, hmap, decode, Except.map, Except.mapError, State.rejectFault]
  | some e =>
    cases e with
    | imp i => simp [fetch, h0, hmap, decode, Except.map, Except.mapError]
    | imm mk | rel mk =>
      obtain _ | ⟨b1, after⟩ := rest <;>
        simp [fetch, h0, h1, hmap, immOperand, relOperand, decode, Except.map, Except.mapError]
    | abs mk =>
      obtain _ | ⟨b1, _ | ⟨b2, after⟩⟩ := rest <;>
        simp [fetch, h0, h1, h2, hmap, absOperand, decode, Except.map, Except.mapError]

theorem fetch_eq_decode_codeWindow (s : State) :
    fetch s = ((decode s.codeWindow).map Prod.fst).mapError s.rejectFault :=
  fetch_eq_decode fun _ => fetchByte_eq_codeWindow s

theorem fetch_of_decode_ok {s : State} {i : Instr} {rest : List Byte} (h : decode s.codeWindow = .ok (i, rest)) :
    fetch s = .ok i := by
  rw [fetch_eq_decode_codeWindow, h]
  rfl

theorem fetch_of_decode_error {s : State} {r : Reject} (h : decode s.codeWindow = .error r) :
    fetch s = .error (s.rejectFault r) := by
  rw [fetch_eq_decode_codeWindow, h]
  rfl

/-- Settles O9: the fetch yields the instruction the window decodes to. -/
theorem stepRunsDecodedInstruction : Obligations.StepRunsDecodedInstruction := fun _ _ _ h =>
  step_of_fetch (fetch_of_decode_ok h)

/-- Settles O11: the decoder's answer on the window, its instruction or its rejection, is the fetch's. -/
theorem fetchRefinesDecode : Obligations.FetchRefinesDecode := by
  intro s
  cases hdec : decode s.codeWindow with
  | ok p => exact step_of_fetch (fetch_of_decode_ok hdec)
  | error r =>
    cases r with
    | unimplementedOpcode b => exact step_of_fetch_error (fetch_of_decode_error hdec)
    | missingByte k => exact step_of_fetch_error (fetch_of_decode_error hdec)

/-! ### Encoded instructions and table words at PC -/

theorem length_encode_le (i : Instr) : (encode i).length ≤ 3 := by cases i <;> simp [encode]

/-- Settles O10: the window begins with the encoding, which decodes to the instruction whatever follows it. -/
theorem stepRunsEncodedInstruction : Obligations.StepRunsEncodedInstruction := by
  intro s i h
  obtain ⟨rest, hwindow⟩ := State.prefix_codeWindow (length_encode_le i) h
  exact stepRunsDecodedInstruction s i rest (hwindow ▸ decodeOfEncode i rest)

theorem State.has_placeAtPc (s : State) (bytes : List Byte) (k : Nat) : (s.placeAtPc bytes).has k = s.has k := by
  simp only [State.has, State.placeAtPc, Memory.place_size]

theorem State.byteAt_placeAtPc {s : State} {bytes : List Byte} {k : Nat} (hk : k < bytes.length) (h : s.has k = true) :
    (s.placeAtPc bytes).byteAt k = bytes[k] := by
  have hin := (s.has_iff k).mp h
  simp only [State.byteAt, State.placeAtPc, Memory.cell_place]
  rw [if_pos (by omega), Nat.add_sub_cancel_left, List.getD_eq_getElem _ _ hk]

/-- Three bytes placed where three fit are the whole window. -/
theorem State.codeWindow_placeAtPc {s : State} {bytes : List Byte} (hlen : bytes.length = 3) (h : s.has 2 = true) :
    (s.placeAtPc bytes).codeWindow = bytes := by
  have hpre : bytes <+: (s.placeAtPc bytes).codeWindow := State.prefix_codeWindow hlen.le fun k hk => by
    have hhas : s.has k = true := State.has_of_le h (by omega)
    exact ⟨(s.has_placeAtPc bytes k).trans hhas,
      by rw [State.byteAt_placeAtPc hk hhas, List.getElem?_eq_getElem hk]⟩
  refine (hpre.eq_of_length_le ?_).symm
  rw [State.codeWindow_eq, List.length_map, List.length_range', hlen]
  exact Nat.min_le_left _ _

theorem decode_of_decodeTableWord {nbits w : Nat} {i : Instr} (h : decodeTableWord nbits w = some i) :
    ∃ rest, decode (tableBytes nbits w) = .ok (i, rest) := by
  cases hdec : decode (tableBytes nbits w) with
  | error r => simp [decodeTableWord, hdec] at h
  | ok p =>
    obtain ⟨j, rest⟩ := p
    simp only [decodeTableWord, hdec, Option.some.injEq] at h
    exact ⟨rest, h ▸ rfl⟩

/-- Settles O16: the placed word's three bytes are the window, and placing them keeps the memory's length. -/
theorem fetchWordRunsNext : Obligations.FetchWordRunsNext := by
  intro s nbits w i h2 hword
  obtain ⟨rest, hdec⟩ := decode_of_decodeTableWord hword
  have hwindow : (s.withFetchWord nbits w).codeWindow = tableBytes nbits w := State.codeWindow_placeAtPc rfl h2
  exact ⟨stepRunsDecodedInstruction _ i rest (hwindow ▸ hdec), rfl, Memory.place_size _ _ _⟩

/-! ### A step that faults (R109, R175) -/

theorem transact_step_of_fault {s : State} {f : Fault} (h : step s = .fault f) : transact .step s = (s, .fault f) := by
  rw [transact, h]

/-- A transaction that leaves the state as it is can be repeated any number of times. -/
theorem transactAll_replicate_of_fixed {t : Transaction} {s : State} (h : (transact t s).1 = s) (n : Nat) :
    transactAll (List.replicate n t) s = s := by
  induction n with
  | zero => rfl
  | succ n ih => rw [List.replicate_succ, transactAll, h, ih]

/-- Settles O52: the faulting step keeps the state, so every further step is the same step. -/
theorem faultChangesNothingAndRepeats : Obligations.FaultChangesNothingAndRepeats := by
  intro s f h n
  have hstep := transact_step_of_fault h
  have hstay : transactAll (List.replicate n .step) s = s :=
    transactAll_replicate_of_fixed (by rw [hstep]) n
  exact ⟨hstay, hstay.symm ▸ hstep⟩

end Sys2Proof.Machine
end

section
/-! A two-byte instruction from its bytes in memory (R82, R84, R104, R106): what its fetch and its step do, whichever of
the two forms its row has; and the immediate loads (R120 to R122). -/

namespace Sys2Proof.Machine

open Sys2Proof.Stmt

/-! ### The step of a two-byte instruction -/

theorem opcodeFetchFaults : OpcodeFetchFaults := fun s h0 =>
  step_of_pc_outside (Nat.not_lt.mp ((s.has_iff 0).not.mp h0))

theorem fetch_of_byte {s : State} {mk : Byte → Instr} (h1 : s.has 1 = true)
    (h : opcodeMap (s.byteAt 0) = some (.imm mk) ∨ opcodeMap (s.byteAt 0) = some (.rel mk)) :
    fetch s = .ok (mk (s.byteAt 1)) := by
  have h0 : s.has 0 = true := State.has_of_le h1 (Nat.zero_le 1)
  rcases h with h | h <;> simp [fetch, immOperand, relOperand, fetchByte_ok h0, fetchByte_ok h1, h]

/-- The address of the missing operand byte is not wrapped (D4). -/
theorem fetch_of_byte_missing {s : State} {mk : Byte → Instr} (h0 : s.has 0 = true) (h1 : s.has 1 = false)
    (h : opcodeMap (s.byteAt 0) = some (.imm mk) ∨ opcodeMap (s.byteAt 0) = some (.rel mk)) :
    fetch s = .error (.outOfRange ((s.pc.toNat : Int) + 1)) := by
  rcases h with h | h <;> simp [fetch, immOperand, relOperand, fetchByte_ok h0, fetchByte_error h1, h]

/-- A two-byte row whose instruction always completes: the step has the instruction's effect of the byte at `pc + 1`,
or faults where that byte is missing. -/
theorem stepsWithByte_of_row {b0 : Byte} {mk : Byte → Instr} {eff : State → Byte → State}
    (hrow : opcodeMap b0 = some (.imm mk) ∨ opcodeMap b0 = some (.rel mk))
    (hexec : ∀ value s, exec (mk value) s = .next (eff s value)) : StepsWithByte b0 eff := by
  rintro s h0 rfl
  refine ⟨fun h1 => ?_, fun h1 => ?_⟩
  · exact (step_of_fetch (fetch_of_byte h1 hrow)).trans (hexec _ s)
  · exact step_of_fetch_error (fetch_of_byte_missing h0 (Bool.eq_false_of_not_eq_true h1) hrow)

/-! ### Immediate loads -/

/-- Settles O17: the three loads are the one shared load, each with its register. -/
theorem immediateLoadResult : Obligations.ImmediateLoadResult := fun value s =>
  ⟨loadImmediate_next .a value s, loadImmediate_next .x value s, loadImmediate_next .y value s⟩

/-- Settles O18: the three opcodes have immediate rows, and a load always completes. -/
theorem immediateLoadStep : Obligations.ImmediateLoadStep :=
  ⟨opcodeFetchFaults,
    stepsWithByte_of_row (.inl rfl) (loadImmediate_next .a),
    stepsWithByte_of_row (.inl rfl) (loadImmediate_next .x),
    stepsWithByte_of_row (.inl rfl) (loadImmediate_next .y)⟩

end Sys2Proof.Machine
end

section
/-! A three-byte instruction from its bytes in memory (R83, R105): which operand byte is missed first; and the absolute
stores, as meanings and as steps (R130 to R132). -/

namespace Sys2Proof.Machine

open Sys2Proof.Stmt

/-! ### The operand fetches of a three-byte instruction -/

/-- The low byte is read first, at an address that is not wrapped (D4, D6). -/
theorem fetch_of_abs_low_missing {s : State} {mk : Word → Instr} (h0 : s.has 0 = true) (h1 : s.has 1 = false)
    (h : opcodeMap (s.byteAt 0) = some (.abs mk)) : fetch s = .error (.outOfRange ((s.pc.toNat : Int) + 1)) := by
  simp [fetch, absOperand, fetchByte_ok h0, fetchByte_error h1, h]

/-- The high byte is read once the low byte was found (D4, D6). -/
theorem fetch_of_abs_high_missing {s : State} {mk : Word → Instr} (h1 : s.has 1 = true) (h2 : s.has 2 = false)
    (h : opcodeMap (s.byteAt 0) = some (.abs mk)) : fetch s = .error (.outOfRange ((s.pc.toNat : Int) + 2)) := by
  have h0 : s.has 0 = true := State.has_of_le h1 (Nat.zero_le 1)
  simp [fetch, absOperand, fetchByte_ok h0, fetchByte_ok h1, fetchByte_error h2, h]

theorem absoluteOperandFaults_of_row {b0 : Byte} {mk : Word → Instr} (hrow : opcodeMap b0 = some (.abs mk)) :
    AbsoluteOperandFaults b0 := by
  rintro s h0 rfl
  refine ⟨fun h1 => ?_, fun h1 h2 => ?_⟩
  · exact step_of_fetch_error (fetch_of_abs_low_missing h0 (Bool.eq_false_of_not_eq_true h1) hrow)
  · exact step_of_fetch_error (fetch_of_abs_high_missing h1 (Bool.eq_false_of_not_eq_true h2) hrow)

/-! ### Absolute stores -/

/-- A store whose target exists changes its one cell and PC only (R130 to R132). -/
theorem isStore_storeAbsolute (r : Reg8) {addr : Word} {s : State} (h : addr.toNat < s.mem.size) :
    IsStore (storeAbsolute r addr s) s addr (s.reg r) := by
  rcases storeAbsolute_cases r addr s with ⟨-, he⟩ | ⟨hout, -⟩
  · exact ⟨_, he, Memory.setCell_size .., fun a => Memory.cell_setCell s.mem addr.toNat a (s.reg r)⟩
  · omega

theorem storeAbsolute_of_target_ge (r : Reg8) {addr : Word} {s : State} (h : s.mem.size ≤ addr.toNat) :
    storeAbsolute r addr s = .fault (.outOfRange addr.toNat) := by
  rcases storeAbsolute_cases r addr s with ⟨hin, -⟩ | ⟨-, he⟩
  · omega
  · exact he

/-- Settles O22: the three stores are the one shared store, each with its register. -/
theorem absoluteStoreResult : Obligations.AbsoluteStoreResult := fun _ _ =>
  ⟨fun h => ⟨isStore_storeAbsolute .a h, isStore_storeAbsolute .x h, isStore_storeAbsolute .y h⟩,
    fun h => ⟨storeAbsolute_of_target_ge .a h, storeAbsolute_of_target_ge .x h, storeAbsolute_of_target_ge .y h⟩⟩

/-- Every opcode of a store: the operand faults come first; past them the step is the shared store at the operand. -/
theorem stepsStore_of_mem_storeRows {b0 : Byte} {r : Reg8} (hrow : (b0, r) ∈ storeRows) :
    StepsStore b0 (fun s => s.reg r) := by
  obtain ⟨mk, hmap, hexec⟩ := exists_abs_of_mem_storeRows hrow
  refine ⟨absoluteOperandFaults_of_row hmap, ?_⟩
  rintro s h2 rfl
  have hstep : step s = storeAbsolute r s.wordAt s := (step_of_fetch (fetch_of_abs h2 hmap)).trans (hexec _ s)
  rw [hstep]
  exact ⟨isStore_storeAbsolute r, storeAbsolute_of_target_ge r⟩

/-- Settles O23: the three opcodes are the rows of `storeRows`, each with its register. -/
theorem absoluteStoreStep : Obligations.AbsoluteStoreStep :=
  ⟨opcodeFetchFaults,
    stepsStore_of_mem_storeRows (r := .a) (by simp [storeRows]),
    stepsStore_of_mem_storeRows (r := .x) (by simp [storeRows]),
    stepsStore_of_mem_storeRows (r := .y) (by simp [storeRows])⟩

end Sys2Proof.Machine
end

section
/-! A one-byte instruction from its byte in memory (R81, R107): past the opcode fetch its step cannot fault; and the
register transfers (R140 to R143). -/

namespace Sys2Proof.Machine

open Sys2Proof.Stmt

/-! ### The step of a one-byte instruction -/

theorem fetch_of_imp {s : State} {i : Instr} (h0 : s.has 0 = true) (h : opcodeMap (s.byteAt 0) = some (.imp i)) :
    fetch s = .ok i := by
  simp [fetch, fetchByte_ok h0, h]

/-- A one-byte row whose instruction always completes: the step has the instruction's effect. -/
theorem stepsImplied_of_row {b0 : Byte} {i : Instr} {eff : State → State} (hrow : opcodeMap b0 = some (.imp i))
    (hexec : ∀ s, exec i s = .next (eff s)) : StepsImplied b0 eff := by
  rintro s h0 rfl
  exact (step_of_fetch (fetch_of_imp h0 hrow)).trans (hexec s)

/-! ### Transfers -/

/-- Settles O20: the four opcodes have implied rows, and a transfer always completes. -/
theorem transferStep : Obligations.TransferStep :=
  ⟨opcodeFetchFaults,
    stepsImplied_of_row rfl (transfer_next .a .x),
    stepsImplied_of_row rfl (transfer_next .a .y),
    stepsImplied_of_row rfl (transfer_next .x .a),
    stepsImplied_of_row rfl (transfer_next .y .a)⟩

/-- Settles O19: the four transfers are the one shared transfer, each with its source and destination. -/
theorem transferResult : Obligations.TransferResult := fun s =>
  ⟨transfer_next .a .x s, transfer_next .a .y s, transfer_next .x .a s, transfer_next .y .a s⟩

end Sys2Proof.Machine
end

section
/-! The arithmetic instruction (R150 to R153): the ALU's add as one formula, ADD as a meaning and from its bytes in
memory, and the subtraction and zero test it stands in for. -/

namespace Sys2Proof.Machine

/-! ### The ALU's add (R150) -/

/-- R150: the answer of the ALU, its flags read from the unreduced sum. -/
theorem aluAdd_eq (a b : Byte) :
    aluAdd a b =
      { result := a + b
        zero := decide ((a.toNat + b.toNat) % 256 = 0)
        carry := decide (a.toNat + b.toNat > 255) } := by
  have hresult : BitVec.ofNat 8 (a.toNat + b.toNat) = a + b := (BitVec.add_def a b).symm
  have hzero : a + b = 0 ↔ (a.toNat + b.toNat) % 256 = 0 := by
    rw [← BitVec.toNat_inj, BitVec.toNat_add]
    rfl
  simp only [aluAdd, hresult, hzero]

/-- Settles O25: the formula, field by field; a sum of two bytes is below 512, so it is 0 modulo 256 and passes 255 only
at 256. -/
theorem aluAddFormula : Obligations.AluAddFormula := by
  intro a b
  have ha := a.isLt
  have hb := b.isLt
  rw [aluAdd_eq]
  refine ⟨BitVec.toNat_add a b, decide_eq_true_iff, decide_eq_true_iff, ?_⟩
  simp only [decide_eq_true_iff]
  omega

/-! ### ADD (R151, R152) -/

/-- Settles O26: the effect of `ADD` with the ALU's formula in it. -/
theorem addResult : Obligations.AddResult := by
  intro value s
  rw [exec_of_not_store rfl s, effect, aluAdd_eq]

/-- Settles O27: the opcode has an immediate row, and an `ADD` always completes. -/
theorem addStep : Obligations.AddStep := ⟨opcodeFetchFaults, stepsWithByte_of_row (.inl rfl) addResult⟩

/-- Settles O28: the next state of `ADD` does not mention the old C, which it overwrites. -/
theorem addTakesNoCarryIn : Obligations.AddTakesNoCarryIn := by
  intro value s c
  refine ⟨?_, _, addResult value s, BitVec.toNat_add s.a value⟩
  rw [addResult, addResult]

/-! ### Subtraction and the zero test by ADD (R93, R153) -/

/-- Adding the byte `256 - n` is subtracting `n`, modulo 256. -/
theorem add_ofNat_sub {n : Nat} (hn : n ≤ 255) (a : Byte) :
    a + BitVec.ofNat 8 (256 - n) = BitVec.ofInt 8 ((a.toNat : Int) - n) := by
  apply BitVec.eq_of_toNat_eq
  simp only [BitVec.toNat_add, BitVec.toNat_ofNat, BitVec.toNat_ofInt]
  omega

/-- Settles O29: the sum `A + (256 - n)` is 0 modulo 256 only when `A = n`, and passes 255 only when `A ≥ n`; `A + 0`
never passes 255. -/
theorem subtractionIdiom : Obligations.SubtractionIdiom := by
  refine ⟨fun n s hlo hhi => ?_, fun s => ?_⟩
  · have ha := s.a.isLt
    have hvalue : (BitVec.ofNat 8 (256 - n)).toNat = 256 - n := Nat.mod_eq_of_lt (by omega)
    have hz : (s.a.toNat + (256 - n)) % 256 = 0 ↔ s.a.toNat = n := by omega
    have hc : s.a.toNat + (256 - n) > 255 ↔ n ≤ s.a.toNat := by omega
    simp only [addResult (BitVec.ofNat 8 (256 - n)) s, hvalue, add_ofNat_sub hhi, hz, hc]
  · have ha := s.a.isLt
    have hvalue : (0 : Byte).toNat = 0 := rfl
    have hz : s.a.toNat % 256 = 0 ↔ s.a = 0 := by rw [Nat.mod_eq_of_lt ha, ← BitVec.toNat_inj, hvalue]
    have hc : ¬ s.a.toNat > 255 := by omega
    have hsum : s.a + 0 = s.a := BitVec.add_zero s.a
    simp only [addResult 0 s, hvalue, hsum, Nat.add_zero, hz, decide_eq_false hc]

end Sys2Proof.Machine
end

section
/-! NOP, the jump and the branches, as meanings and from their bytes in memory (R160 to R163); and the transfers that
lead back to themselves (R165). -/

namespace Sys2Proof.Machine

open Sys2Proof.Stmt

/-! ### NOP, jump and branches -/

/-- Settles O21: the opcode has an implied row, and `NOP` always completes. -/
theorem nopOnlyAdvances : Obligations.NopOnlyAdvances :=
  ⟨execNop_next, opcodeFetchFaults, stepsImplied_of_row rfl execNop_next⟩

theorem step_of_jmp {s : State} (h2 : s.has 2 = true) (hb : s.byteAt 0 = 0x4C) :
    step s = .next { s with pc := s.wordAt } := by
  have hrow : opcodeMap (s.byteAt 0) = some (.abs .jmp) := by rw [hb]; rfl
  exact (step_of_fetch (fetch_of_abs h2 hrow)).trans (execJmp_next s.wordAt s)

/-- Settles O30: the opcode has an absolute row, and a `JMP` whose operand is there always completes. -/
theorem jumpResult : Obligations.JumpResult :=
  ⟨execJmp_next, opcodeFetchFaults, absoluteOperandFaults_of_row (mk := .jmp) rfl, fun _ => step_of_jmp⟩

/-- Settles O32: the two opcodes have relative rows, whose offset is fetched before Z is tested (D5), and a branch
always completes. -/
theorem branchStep : Obligations.BranchStep :=
  ⟨opcodeFetchFaults,
    stepsWithByte_of_row (.inr rfl) execBne_next,
    stepsWithByte_of_row (.inr rfl) fun offset s => branchIf_next s.z offset s⟩

/-! ### Transfers to themselves (R165) -/

/-- A state that a step leaves as it is, any number of steps leaves as it is. -/
theorem run_of_step_self {s : State} (h : step s = .next s) (n : Nat) : run n s = .next s := by
  induction n with
  | zero => rfl
  | succ n ih => rw [run_succ_next h, ih]

theorem step_of_jmp_self {s : State} (h2 : s.has 2 = true) (hb : s.byteAt 0 = 0x4C) (hself : s.wordAt = s.pc) :
    step s = .next s := by
  rw [step_of_jmp h2 hb, hself]

/-- The offset 0xFE is -2: it leads from the next instruction back to the branch. -/
theorem add_two_add_signExtend_FE (pc : Word) : pc + 2 + (0xFE : Byte).signExtend 16 = pc := by
  rw [BitVec.add_assoc]
  exact BitVec.add_zero pc

theorem branchIf_true_self (s : State) : branchIf true 0xFE s = .next s :=
  (branchIf_next true 0xFE s).trans
    (congrArg (fun pc => Host.Outcome.next { s with pc := pc }) (add_two_add_signExtend_FE s.pc))

/-- A relative row with the offset 0xFE whose branch is taken. -/
theorem step_of_rel_self {s : State} {mk : Byte → Instr} (h1 : s.has 1 = true)
    (hrow : opcodeMap (s.byteAt 0) = some (.rel mk)) (hoff : s.byteAt 1 = 0xFE)
    (htaken : exec (mk 0xFE) s = branchIf true 0xFE s) : step s = .next s := by
  rw [step_of_fetch (fetch_of_byte h1 (.inr hrow)), hoff, htaken, branchIf_true_self]

theorem step_of_bne_self {s : State} (h1 : s.has 1 = true) (hb : s.byteAt 0 = 0xD0) (hoff : s.byteAt 1 = 0xFE)
    (hz : s.z = false) : step s = .next s := by
  have hrow : opcodeMap (s.byteAt 0) = some (.rel .bne) := by rw [hb]; rfl
  exact step_of_rel_self h1 hrow hoff (exec_bne_of_z hz 0xFE)

theorem step_of_beq_self {s : State} (h1 : s.has 1 = true) (hb : s.byteAt 0 = 0xF0) (hoff : s.byteAt 1 = 0xFE)
    (hz : s.z = true) : step s = .next s := by
  have hrow : opcodeMap (s.byteAt 0) = some (.rel .beq) := by rw [hb]; rfl
  exact step_of_rel_self h1 hrow hoff (exec_beq_of_z hz 0xFE)

/-- Settles O35: each of the three steps leaves the state as it is, and so does any number of them. -/
theorem selfTransferLoopsForever : Obligations.SelfTransferLoopsForever := fun _ n =>
  ⟨fun h2 hb hself => run_of_step_self (step_of_jmp_self h2 hb hself) n,
    fun h1 hb hoff hz => run_of_step_self (step_of_bne_self h1 hb hoff hz) n,
    fun h1 hb hoff hz => run_of_step_self (step_of_beq_self h1 hb hoff hz) n⟩

end Sys2Proof.Machine
end

section
/-! The faults of a step (R170 to R177): the fault is the first check of R177 that fails (`firstFault`), a step that fails
none completes, and the host recovers from a fault by writing over the byte at PC. -/

namespace Sys2Proof.Machine

open Sys2Proof.Stmt

/-! ### The form of an opcode's row and the opcode lists -/

theorem opcodes3_disjoint_opcodes1 : ∀ b0 ∈ opcodes3, b0 ∉ opcodes1 := by decide
theorem storeOpcodes_subset_opcodes3 : storeOpcodes ⊆ opcodes3 := by decide

theorem instrLength_eq_some_iff_of_row {b0 : Byte} {e : OpcodeEntry} (h : opcodeMap b0 = some e) (n : Nat) :
    instrLength b0 = some n ↔ entryLength e = n := by
  rw [instrLength, h, Option.map_some, Option.some.injEq]

theorem mem_opcodes1_iff_of_row {b0 : Byte} {e : OpcodeEntry} (h : opcodeMap b0 = some e) :
    b0 ∈ opcodes1 ↔ entryLength e = 1 :=
  (instrLength_iff b0).1.symm.trans (instrLength_eq_some_iff_of_row h 1)

theorem mem_opcodes3_iff_of_row {b0 : Byte} {e : OpcodeEntry} (h : opcodeMap b0 = some e) :
    b0 ∈ opcodes3 ↔ entryLength e = 3 :=
  (instrLength_iff b0).2.2.symm.trans (instrLength_eq_some_iff_of_row h 3)

theorem exists_row_of_mem_opcodes {b0 : Byte} (h : b0 ∈ opcodes) : ∃ e, opcodeMap b0 = some e :=
  Option.isSome_iff_exists.mp ((opcodeMap_isSome_iff b0).mpr h)

theorem exists_abs_of_mem_opcodes3 {b0 : Byte} (h : b0 ∈ opcodes3) : ∃ mk, opcodeMap b0 = some (.abs mk) := by
  obtain ⟨e, hmap⟩ := exists_row_of_mem_opcodes (opcodesByLength_subset.2.2 h)
  have hlen := (mem_opcodes3_iff_of_row hmap).mp h
  cases e with
  | abs mk => exact ⟨mk, hmap⟩
  | imp | imm | rel => cases hlen

theorem exists_mem_storeRows {b0 : Byte} (h : b0 ∈ storeOpcodes) : ∃ r, (b0, r) ∈ storeRows := by
  simpa using (show b0 ∈ storeRows.map Prod.fst from h)

/-- An absolute row whose instruction is a store writes the cell its operand names (R130 to R132). -/
theorem storeTarget_of_opcodeMap_abs {b0 : Byte} {mk : Word → Instr} (h : opcodeMap b0 = some (.abs mk))
    {addr target : Word} (ht : storeTarget (mk addr) = some target) : b0 ∈ storeOpcodes ∧ target = addr := by
  obtain ⟨rfl, rfl⟩ | ⟨rfl, rfl⟩ | ⟨rfl, rfl⟩ | ⟨rfl, rfl⟩ := by simpa using opcodeMap_cases h
  on_goal 4 => cases ht
  all_goals exact ⟨by decide, (Option.some.inj ht).symm⟩

/-! ### The checks of R177, one at a time -/

/-- Every fault the checks can give, with what each check says once those before it have passed. -/
theorem firstFault_some_cases {s : State} {f : Fault} (h : firstFault s = some f) :
    (¬ s.has 0 ∧ f = .outOfRange s.pc.toNat) ∨
    (s.has 0 ∧ s.byteAt 0 ∉ opcodes ∧ f = .unimplementedOpcode (s.byteAt 0)) ∨
    (s.has 0 ∧ s.byteAt 0 ∈ opcodes ∧ s.byteAt 0 ∉ opcodes1 ∧ ¬ s.has 1 ∧
      f = .outOfRange ((s.pc.toNat : Int) + 1)) ∨
    (s.has 1 ∧ s.byteAt 0 ∈ opcodes3 ∧ ¬ s.has 2 ∧ f = .outOfRange ((s.pc.toNat : Int) + 2)) ∨
    (s.has 2 ∧ s.byteAt 0 ∈ storeOpcodes ∧ s.mem.size ≤ s.wordAt.toNat ∧ f = .outOfRange s.wordAt.toNat) := by
  rw [firstFault] at h
  split_ifs at h with h0 hop h1 h2 hstore <;> cases h
  · obtain ⟨hlen, hno⟩ := h1
    exact .inr (.inr (.inl ⟨h0, hop, hlen, hno, rfl⟩))
  · obtain ⟨hlen, hno⟩ := h2
    have has1 : s.has 1 := by_contra fun hno1 => h1 ⟨opcodes3_disjoint_opcodes1 _ hlen, hno1⟩
    exact .inr (.inr (.inr (.inl ⟨has1, hlen, hno, rfl⟩)))
  · obtain ⟨hst, hout⟩ := hstore
    have has2 : s.has 2 := by_contra fun hno2 => h2 ⟨storeOpcodes_subset_opcodes3 hst, hno2⟩
    exact .inr (.inr (.inr (.inr ⟨has2, hst, hout, rfl⟩)))
  · exact .inr (.inl ⟨h0, hop, rfl⟩)
  · exact .inl ⟨h0, rfl⟩

/-- What the checks establish when all of them pass. -/
theorem checks_of_firstFault_none {s : State} (h : firstFault s = none) :
    s.has 0 ∧ s.byteAt 0 ∈ opcodes ∧ (s.byteAt 0 ∉ opcodes1 → s.has 1) ∧ (s.byteAt 0 ∈ opcodes3 → s.has 2) ∧
      (s.byteAt 0 ∈ storeOpcodes → s.wordAt.toNat < s.mem.size) := by
  rw [firstFault] at h
  split_ifs at h with h0 hop h1 h2 hstore
  exact ⟨h0, hop, fun hlen => by_contra fun hno => h1 ⟨hlen, hno⟩, fun hlen => by_contra fun hno => h2 ⟨hlen, hno⟩,
    fun hst => Nat.lt_of_not_le fun hout => hstore ⟨hst, hout⟩⟩

/-- Whatever the form, the byte after the opcode is the first operand byte asked for (R103 to R106). -/
theorem step_of_operand_missing {s : State} (h0 : s.has 0) (hop : s.byteAt 0 ∈ opcodes)
    (hlen : s.byteAt 0 ∉ opcodes1) (h1 : ¬ s.has 1) : step s = .fault (.outOfRange ((s.pc.toNat : Int) + 1)) := by
  obtain ⟨e, hmap⟩ := exists_row_of_mem_opcodes hop
  have h1 : s.has 1 = false := Bool.eq_false_of_not_eq_true h1
  apply step_of_fetch_error
  cases e with
  | imp i => exact absurd ((mem_opcodes1_iff_of_row hmap).mpr rfl) hlen
  | imm mk => exact fetch_of_byte_missing h0 h1 (.inl hmap)
  | rel mk => exact fetch_of_byte_missing h0 h1 (.inr hmap)
  | abs mk => exact fetch_of_abs_low_missing h0 h1 hmap

theorem step_of_firstFault_some {s : State} {f : Fault} (h : firstFault s = some f) : step s = .fault f := by
  obtain ⟨h0, rfl⟩ | ⟨h0, hun, rfl⟩ | ⟨h0, hop, hlen, h1, rfl⟩ | ⟨h1, hop, h2, rfl⟩ | ⟨h2, hop, hout, rfl⟩ :=
    firstFault_some_cases h
  · exact opcodeFetchFaults s h0
  · exact step_of_unimplemented h0 hun
  · exact step_of_operand_missing h0 hop hlen h1
  · obtain ⟨mk, hmap⟩ := exists_abs_of_mem_opcodes3 hop
    exact step_of_fetch_error (fetch_of_abs_high_missing h1 (Bool.eq_false_of_not_eq_true h2) hmap)
  · obtain ⟨r, hrow⟩ := exists_mem_storeRows hop
    exact ((stepsStore_of_mem_storeRows hrow).2 s h2 rfl).2 hout

/-- Past the checks every byte of the instruction is there, and a store's target exists. -/
theorem exists_next_of_firstFault_none {s : State} (h : firstFault s = none) : ∃ t, step s = .next t := by
  obtain ⟨h0, hop, h1, h2, hin⟩ := checks_of_firstFault_none h
  obtain ⟨e, hmap⟩ := exists_row_of_mem_opcodes hop
  have hlen1 := mem_opcodes1_iff_of_row hmap
  cases e with
  | imp i =>
    exact ⟨_, (step_of_fetch (fetch_of_imp h0 hmap)).trans
      (exec_of_not_store (storeTarget_of_opcodeMap_imp hmap) s)⟩
  | imm mk | rel mk =>
    have hrow : opcodeMap (s.byteAt 0) = some (.imm mk) ∨ opcodeMap (s.byteAt 0) = some (.rel mk) := by
      simp [hmap]
    exact ⟨_, (step_of_fetch (fetch_of_byte (h1 (hlen1.not.mpr nofun)) hrow)).trans
      (exec_of_not_store (storeTarget_of_opcodeMap_byte hrow _) s)⟩
  | abs mk =>
    have hhas := h2 ((mem_opcodes3_iff_of_row hmap).mpr rfl)
    refine ⟨_, (step_of_fetch (fetch_of_abs hhas hmap)).trans (exec_of_target_lt fun target ht => ?_)⟩
    obtain ⟨hstore, rfl⟩ := storeTarget_of_opcodeMap_abs hmap ht
    exact hin hstore

/-- Settles O12: each check's fault is the step's, and past all five the instruction completes. -/
theorem checksInFixedOrder : Obligations.ChecksInFixedOrder := fun _ =>
  ⟨fun _ => step_of_firstFault_some, exists_next_of_firstFault_none⟩

/-- The converse too: a completed step has failed no check, and a step has one outcome (R170). -/
theorem step_fault_iff (s : State) (f : Fault) : step s = .fault f ↔ firstFault s = some f := by
  refine ⟨fun h => ?_, step_of_firstFault_some⟩
  cases hff : firstFault s with
  | none =>
    obtain ⟨t, ht⟩ := exists_next_of_firstFault_none hff
    rw [ht] at h
    cases h
  | some g =>
    rw [step_of_firstFault_some hff] at h
    cases h
    rfl

/-- No instruction is refused a meaning (R170). -/
theorem step_ne_refused (s : State) (r : Refusal) : step s ≠ .refused r := by
  cases hff : firstFault s with
  | none =>
    obtain ⟨t, ht⟩ := exists_next_of_firstFault_none hff
    simp [ht]
  | some f => simp [step_of_firstFault_some hff]

/-! ### The two faults -/

/-- Settles O7: of the five checks only the second gives this fault. -/
theorem unimplementedOpcodeExactlyWhen : Obligations.UnimplementedOpcodeExactlyWhen := by
  have hraise (s : State) (b : Byte) (h0 : s.has 0) (hb : s.byteAt 0 = b) (hun : b ∉ opcodes) :
      step s = .fault (.unimplementedOpcode b) := hb ▸ step_of_unimplemented h0 (hb ▸ hun)
  refine fun s b => ⟨⟨fun h => ?_, fun ⟨h0, hb, hun⟩ => hraise s b h0 hb hun⟩,
    fun h0 hb hun => transact_step_of_fault (hraise s b h0 hb hun)⟩
  have hcases := firstFault_some_cases ((step_fault_iff s _).mp h)
  simp only [reduceCtorEq, Fault.unimplementedOpcode.injEq, and_false, false_or, or_false] at hcases
  obtain ⟨h0, hun, rfl⟩ := hcases
  exact ⟨h0, rfl, hun⟩

/-- Settles O14: the address is that of the first missing byte, all bytes before it being there, or a store's 16-bit
target. -/
theorem faultPayloadBounds : Obligations.FaultPayloadBounds := by
  refine fun s => ⟨fun a h => ?_, step_ne_refused s⟩
  have hpc := s.pc.isLt
  have hword := s.wordAt.isLt
  have hcases := firstFault_some_cases ((step_fault_iff s _).mp h)
  simp only [State.has_iff, Fault.outOfRange.injEq, reduceCtorEq, and_false, false_or] at hcases
  obtain ⟨h0, rfl⟩ | ⟨h0, -, -, h1, rfl⟩ | ⟨h1, -, h2, rfl⟩ | ⟨-, -, hout, rfl⟩ := hcases
  all_goals omega

/-! ### Recovery by the host (R176) -/

/-- Settles O53: the faulting step keeps the state, and the cell the host writes is the opcode byte of the next. -/
theorem hostRecoversFromFault : Obligations.HostRecoversFromFault := by
  intro s f h h0
  have hwrite : transact (.writeByte s.pc.toNat 0xEA) s =
      ({ s with mem := s.mem.setCell s.pc.toNat 0xEA }, .ok) :=
    transact_writeByte_of_lt ((s.has_iff 0).mp h0) 0xEA
  obtain ⟨-, -, hnop⟩ := nopOnlyAdvances
  have hnext : transact .step { s with mem := s.mem.setCell s.pc.toNat 0xEA } =
      ({ s with mem := s.mem.setCell s.pc.toNat 0xEA, pc := s.pc + 1 }, .ok) :=
    transact_step_of_next (hnop _ h0 (by simp [State.byteAt, Memory.cell_setCell]))
  refine ⟨s.mem.setCell s.pc.toNat 0xEA, ?_, ?_, fun a => Memory.cell_setCell s.mem s.pc.toNat a 0xEA⟩
  · simp only [transactAll, transact_step_of_fault h, hwrite, hnext]
  · rw [hwrite, hnext]

end Sys2Proof.Machine
end

section
/-! Reset and the host between steps (R190 to R193, R202): what one transaction keeps, and what the machine does right
after reset. -/

namespace Sys2Proof.Machine

open Sys2Proof.Stmt

/-! ### What every transaction keeps -/

@[simp] theorem transact_reset (s : State) :
    transact .reset s = (State.resetWith s.mem.size Config.zReset Config.cReset, .ok) := rfl

theorem transact_step_of_refused {s : State} {r : Refusal} (h : step s = .refused r) :
    transact .step s = (s, .refused r) := by
  rw [transact, h]

theorem step_mem_size {s t : State} (h : step s = .next t) : t.mem.size = s.mem.size := by
  obtain ⟨i, rfl⟩ := eq_effect_of_step h
  exact effect_mem_size i s

/-- The memory is canonical and has `size` cells: what no transaction changes (R53, R191). -/
def State.CanonicalOfSize (size : Nat) (s : State) : Prop := s.Inv ∧ s.mem.size = size

theorem transact_keeps_canonicalOfSize {size : Nat} {s : State} (t : Transaction) (h : s.CanonicalOfSize size) :
    (transact t s).1.CanonicalOfSize size := by
  obtain ⟨hinv, hsize⟩ := h
  cases t with
  | reset => exact ⟨State.resetWith_inv _ _ _, hsize⟩
  | step =>
    cases hstep : step s with
    | next u =>
      rw [transact_step_of_next hstep]
      exact ⟨step_keeps_inv hinv hstep, (step_mem_size hstep).trans hsize⟩
    | fault f => rw [transact_step_of_fault hstep]; exact ⟨hinv, hsize⟩
    | refused r => rw [transact_step_of_refused hstep]; exact ⟨hinv, hsize⟩
  | writeByte a v =>
    rcases transact_writeByte_cases a v s with ⟨hlo, hhi, hwrite⟩ | ⟨-, hwrite⟩ <;> rw [hwrite]
    · exact ⟨Memory.setCell_wf hinv (by omega), hsize⟩
    · exact ⟨hinv, hsize⟩
  | setReg r raw =>
    rw [transact_setReg, State.CanonicalOfSize, State.Inv, s.presetReg_mem]
    exact ⟨hinv, hsize⟩
  | readByte a => rw [transact_readByte_state]; exact ⟨hinv, hsize⟩
  | size | getReg | getFlag => exact ⟨hinv, hsize⟩

/-- What every transaction keeps holds after any list of them. -/
theorem transactAll_keeps {P : State → Prop} (hkeep : ∀ t s, P s → P (transact t s).1) (ts : List Transaction)
    {s : State} (hs : P s) : P (transactAll ts s) := by
  induction ts generalizing s with
  | nil => exact hs
  | cons t ts ih => exact ih (hkeep t s hs)

/-- Settles O45: one transaction keeps both, and so does a list of them. -/
theorem hostInterleavingKeepsInvariant : Obligations.HostInterleavingKeepsInvariant := fun ts s hs =>
  transactAll_keeps (P := State.CanonicalOfSize s.mem.size) (fun t _ => transact_keeps_canonicalOfSize t) ts ⟨hs, rfl⟩

/-! ### After reset -/

/-- Settles O48: of the state before, the reset state mentions the memory length only. -/
theorem resetDiscardsEverything : Obligations.ResetDiscardsEverything := by
  intro s t hsize
  rw [transact_reset, transact_reset, hsize]
  exact ⟨rfl, rfl, _, _, rfl⟩

/-- Settles O49: PC is 0, where an unlisted cell holds 0x00, no opcode, and an empty memory has no cell. -/
theorem emptyMachineFaults : Obligations.EmptyMachineFaults := by
  refine fun memSize z c => ⟨fun hpos => ?_, fun hempty => step_of_pc_outside hempty.le⟩
  have h0 : (State.resetWith memSize z c).has 0 := (State.has_iff _ 0).mpr hpos
  have hbyte : (State.resetWith memSize z c).byteAt 0 = 0x00 := Memory.empty_cell memSize _
  have hun : (0x00 : Byte) ∉ opcodes := by decide
  exact hbyte ▸ step_of_unimplemented h0 (hbyte ▸ hun)

end Sys2Proof.Machine
end

section
/-! The top of the address space (R200): the instruction fetched is the one encoded at PC, so its fetch succeeds exactly
when all its bytes lie in memory, and PC moves on by its length unless it jumps or branches. -/

namespace Sys2Proof.Machine

open Sys2Proof.Stmt

/-! ### The instruction fetched and its bytes -/

/-- The fetched instruction's encoding heads the window. -/
theorem exists_codeWindow_eq_of_fetch {s : State} {i : Instr} (h : fetch s = .ok i) :
    ∃ rest, s.codeWindow = encode i ++ rest := by
  cases hdec : decode s.codeWindow with
  | error r => rw [fetch_of_decode_error hdec] at h; cases h
  | ok p =>
    rw [fetch_of_decode_ok hdec] at h
    cases h
    exact ⟨p.2, decodedBytesAreTheEncoding _ _ _ hdec⟩

theorem head?_encode_of_fetch {s : State} {i : Instr} (h : fetch s = .ok i) :
    (encode i).head? = some (s.byteAt 0) := by
  obtain ⟨rest, hwindow⟩ := exists_codeWindow_eq_of_fetch h
  obtain ⟨b0, operands, henc, -⟩ := encodedLength i
  have hbyte := s.codeWindow_getElem? (k := 0) (by omega)
  rw [hwindow, henc] at hbyte
  rw [henc]
  split at hbyte
  · exact hbyte
  · cases hbyte

/-- R91: the opcode byte gives the length of the instruction fetched. -/
theorem instrLength_of_fetch {s : State} {i : Instr} (h : fetch s = .ok i) :
    instrLength (s.byteAt 0) = some (encode i).length := by
  obtain ⟨b0, operands, henc, hlen⟩ := encodedLength i
  have hhead := head?_encode_of_fetch h
  rw [henc] at hhead ⊢
  cases hhead
  exact hlen

/-- A fetch succeeds exactly when the instruction's bytes lie in memory, at addresses that are not wrapped (D4). -/
theorem exists_fetch_iff_fits {s : State} {n : Nat} (hlen : instrLength (s.byteAt 0) = some n) :
    (∃ i, fetch s = .ok i) ↔ s.pc.toNat + n ≤ s.mem.size := by
  constructor
  · rintro ⟨i, hi⟩
    obtain ⟨b0, operands, henc, -⟩ := encodedLength i
    obtain ⟨rest, hwindow⟩ := exists_codeWindow_eq_of_fetch hi
    have hn : (encode i).length = n := Option.some.inj ((instrLength_of_fetch hi).symm.trans hlen)
    have hwindowLen := congrArg List.length (s.codeWindow_eq.symm.trans hwindow)
    rw [List.length_map, List.length_range', List.length_append, hn] at hwindowLen
    have hpos : 0 < n := by rw [← hn, henc]; exact Nat.succ_pos _
    omega
  · intro hfit
    obtain ⟨e, hmap, rfl⟩ := Option.map_eq_some_iff.mp hlen
    have hhas (k : Nat) (hk : entryLength e = k + 1) : s.has k = true := (s.has_iff k).mpr (by omega)
    cases e with
    | imp i => exact ⟨i, fetch_of_imp (hhas 0 rfl) hmap⟩
    | imm mk => exact ⟨_, fetch_of_byte (hhas 1 rfl) (.inl hmap)⟩
    | rel mk => exact ⟨_, fetch_of_byte (hhas 1 rfl) (.inr hmap)⟩
    | abs mk => exact ⟨_, fetch_of_abs (hhas 2 rfl) hmap⟩

/-- The sequential advance of R27: every instruction but `JMP`, `BNE` and `BEQ` moves PC on by its length. -/
theorem newPc_eq_add_length {i : Instr} {b0 : Byte} (hhead : (encode i).head? = some b0)
    (hseq : b0 ∉ [0x4C, 0xD0, 0xF0]) (s : State) : newPc i s = (s.pc.toNat : Int) + (encode i).length := by
  cases i with
  | jmp | bne | beq =>
    cases hhead
    exact absurd hseq (by decide)
  | _ => rfl

/-! ### At the top -/

/-- With 65536 cells every 16-bit target exists, so an instruction whose fetch succeeds completes. -/
theorem step_of_fetch_of_size {s : State} {i : Instr} (hsize : s.mem.size = 65536) (h : fetch s = .ok i) :
    step s = .next (effect i s) :=
  (step_of_fetch h).trans (exec_of_target_lt fun addr _ => hsize ▸ addr.isLt)

theorem effect_pc_of_ends_at_top {s : State} {i : Instr} (h : fetch s = .ok i)
    (htop : s.pc.toNat + (encode i).length = 65536) (hseq : s.byteAt 0 ∉ [0x4C, 0xD0, 0xF0]) :
    (effect i s).pc = 0x0000 := by
  have hnew : newPc i s = 65536 := by rw [newPc_eq_add_length (head?_encode_of_fetch h) hseq]; omega
  rw [effect_pc, hnew]
  rfl

/-- A straddling instruction fails a check, and of the checks only a missing operand byte can fail: the first one missing
is the one past the top (D4, D5, D6). -/
theorem step_of_straddles_top {s : State} {n : Nat} (hsize : s.mem.size = 65536)
    (hlen : instrLength (s.byteAt 0) = some n) (hover : 65536 < s.pc.toNat + n) :
    step s = .fault (.outOfRange 0x10000) := by
  cases hff : firstFault s with
  | none =>
    obtain ⟨t, ht⟩ := exists_next_of_firstFault_none hff
    obtain ⟨i, hi, -⟩ := exec_of_step ht
    have hfit := (exists_fetch_iff_fits hlen).mp ⟨i, hi⟩
    omega
  | some f =>
    have hpc := s.pc.isLt
    have hword := s.wordAt.isLt
    have hop : s.byteAt 0 ∈ opcodes := by
      by_contra hun
      simp [(instrLength_eq_none_iff _).mpr hun] at hlen
    rw [step_of_firstFault_some hff]
    have hcases := firstFault_some_cases hff
    simp only [State.has_iff, hsize] at hcases
    obtain ⟨h0, -⟩ | ⟨-, hun, -⟩ | ⟨h0, -, -, h1, rfl⟩ | ⟨h1, -, h2, rfl⟩ | ⟨-, -, hout, -⟩ := hcases
    · omega
    · exact absurd hop hun
    · rw [show (s.pc.toNat : Int) + 1 = 0x10000 by omega]
    · rw [show (s.pc.toNat : Int) + 2 = 0x10000 by omega]
    · omega

/-- Settles O15: an instruction that ends at the top is fetched whole and its target exists; one that straddles it
misses a byte. -/
theorem topOfAddressSpace : Obligations.TopOfAddressSpace := by
  refine fun s hsize => ⟨fun n hlen htop => ?_, fun n => step_of_straddles_top hsize⟩
  obtain ⟨i, hi⟩ := (exists_fetch_iff_fits hlen).mpr (by omega)
  obtain rfl := Option.some.inj ((instrLength_of_fetch hi).symm.trans hlen)
  exact ⟨effect i s, step_of_fetch_of_size hsize hi, effect_pc_of_ends_at_top hi htop⟩

end Sys2Proof.Machine
end

section
/-! The end of a run as the position of PC (R195, D11): a state that a step keeps or at which it faults reaches no other
end address; a state one step before it does, and goes on from there. -/

namespace Sys2Proof.Machine

open Sys2Proof.Stmt

theorem not_hasResult_of_step_self {E : Word} {s : State} (hE : s.pc ≠ E) (h : step s = .next s) (t : State) :
    ¬ HasResult E s t := by
  rintro ⟨n, hrun, hend, -⟩
  rw [run_of_step_self h] at hrun
  cases hrun
  exact hE hend

theorem not_hasResult_of_step_fault {E : Word} {s : State} {f : Fault} (hE : s.pc ≠ E) (h : step s = .fault f)
    (t : State) : ¬ HasResult E s t := by
  rintro ⟨n, hrun, hend, -⟩
  cases n with
  | zero =>
    cases hrun
    exact hE hend
  | succ n =>
    rw [run_succ_fault h] at hrun
    cases hrun

theorem hasResult_of_step {s t : State} (h : step s = .next t) (hne : s.pc ≠ t.pc) : HasResult t.pc s t := by
  refine ⟨1, run_succ_next h 0, rfl, fun m hm u hrun => ?_⟩
  obtain rfl : m = 0 := by omega
  cases hrun
  exact hne

theorem step_of_nop {s : State} (h0 : s.has 0) (hb : s.byteAt 0 = 0xEA) : step s = .next { s with pc := s.pc + 1 } := by
  obtain ⟨-, -, hnop⟩ := nopOnlyAdvances
  exact hnop s h0 hb

/-- No position of PC stops the machine: the next step is the one the byte at PC gives (R111, R195). -/
theorem doesNotStop (t : State) : DoesNotStop t := by
  refine ⟨exists_next_of_firstFault_none, step_of_nop, fun h0 hb => ?_⟩
  have hun : (0x00 : Byte) ∉ opcodes := by decide
  exact hb ▸ step_of_unimplemented h0 (hb ▸ hun)

/-- Settles O54: the self-transfers keep the state and a failing check faults; `JMP` and `NOP` are one step before the
address they leave in PC. -/
theorem endOfRunIsThePositionOfPc : Obligations.EndOfRunIsThePositionOfPc := by
  refine ⟨fun E s t hE => ⟨?_, ?_, ?_, ?_⟩, fun s h2 hb hne => ?_, fun s h0 hb => ?_⟩
  · exact fun h2 hb hself => not_hasResult_of_step_self hE (step_of_jmp_self h2 hb hself) t
  · exact fun h1 hb hoff hz => not_hasResult_of_step_self hE (step_of_bne_self h1 hb hoff hz) t
  · exact fun h1 hb hoff hz => not_hasResult_of_step_self hE (step_of_beq_self h1 hb hoff hz) t
  · exact fun f hf => not_hasResult_of_step_fault hE (step_of_firstFault_some hf) t
  · exact ⟨_, rfl, hasResult_of_step (step_of_jmp h2 hb) hne.symm, doesNotStop _⟩
  · exact ⟨_, rfl, hasResult_of_step (step_of_nop h0 hb) (left_ne_add.mpr (by decide)), doesNotStop _⟩

end Sys2Proof.Machine
end
